-- ==== Sys2Proof/Word.lean ====
section
/-! DEFINITION. The one word type of the machine: data, addresses and memory positions are all 8 bits wide
(00_scope.md R1, R5). Bit 7 is the most significant bit (R7). -/

namespace Sys2Proof

/-- One 8-bit value: a datum, an address, or the content of one memory position (00_scope.md R5: DATA_WIDTH,
ADDR_WIDTH, MEM_CELL_WIDTH). `BitVec.toNat` is the rules' `unsigned`, `BitVec.toInt` their `signed` (R7). -/
abbrev Byte := BitVec 8

end Sys2Proof
end

