-- ==== Sys2Proof/Config.lean ====
section
/-! DEFINITION. What is fixed for the machine and never changes in a run: the parameters the source fixes
(00_scope.md R5), the names of the eight times, the named policies and launch default of 00_scope.md R6, and the two
free values the spec leaves open (opaque, so no proof can see them). -/

namespace Sys2Proof

/-- The eight times of the control sequence, "numerados de t0 a t7" (10_state.md R23, 45_control_sequences.md R130). -/
inductive Time where
  | t0 | t1 | t2 | t3 | t4 | t5 | t6 | t7
  deriving DecidableEq, Repr, Inhabited

/-- LOW_NIBBLE_POLICY (00_scope.md R6, 30_encoding.md R53, D3): what a non-zero low half of an opcode byte does. -/
inductive LowNibblePolicy where
  /-- The default of the spec: bits 3 to 0 take no part in decoding. -/
  | ignore
  /-- The stricter alternative the spec names: such a byte is the model-level outcome `NonZeroLowNibble`. -/
  | refuse
  deriving DecidableEq, Repr

/-- UNDEF_OPCODE_POLICY (00_scope.md R6, 30_encoding.md R56, D4): what the five undefined codes do. -/
inductive UndefOpcodePolicy where
  /-- The default of the spec: the model-level outcome `IllegalOpcode`. -/
  | fault
  /-- The alternative the spec names: a one-byte no-operation. -/
  | nop1
  deriving DecidableEq, Repr

/-- The two decoding policies of 00_scope.md R6 (log 27). -/
structure Policies where
  lowNibble   : LowNibblePolicy
  undefOpcode : UndefOpcodePolicy
  deriving DecidableEq, Repr

namespace Config

/-- MEM_POSITIONS (00_scope.md R5): "Uma memória de 256 posições de 8 bits cada". -/
def memPositions : Nat := 256

/-- OPCODE_POSITION (00_scope.md R6, 30_encoding.md R52, D2): the number of the lowest bit of the 4-bit code in the
opcode byte. PRESUMED (log 1): the spec's decision from general knowledge. -/
def opcodeLsb : Nat := 4

/-- The default of the launch parameter PC0 (00_scope.md R6, 10_state.md R26, D8). PRESUMED (log 7). -/
def pc0 : Byte := 0x00#8

/-- FREE VALUE (log 18): T7_ROLLOVER of 00_scope.md R6, the time that follows t7 when no "goto t0" was given.
The spec leaves it open (10_state.md R23, 45_control_sequences.md R137, D17). -/
opaque timeAfterT7 : Time

/-- FREE VALUE (log 19): the output of the UAL for inputs X and Y when none of its five selects is active, which is
not stated and loaded nowhere (45_control_sequences.md R128, U9). -/
opaque ualNoSelect : Byte → Byte → Byte

end Config

end Sys2Proof
end

