-- ==== Sys2Proof/Machine/State.lean ====
section
/-! DEFINITION. The state of the machine as plain data: the programmer-visible state (10_state.md R10), the hidden
registers of the organisation (R22), the current time (R23) and the run state (R24); the reasons a step can stop; the
state at the start of a run (R26). -/

namespace Sys2Proof.Machine

open Sys2Proof

/-- Why the machine is faulted (60_exceptions.md R153): the address `a` and the value `b` of the opcode byte. Not a
hardware exception: it carries no cause code, saves nothing, vectors nowhere. -/
inductive FaultReason where
  /-- The opcode byte has one of the five undefined codes (30_encoding.md R56, D4). -/
  | illegalOpcode (addr opcode : Byte)
  /-- The opcode byte has a defined code and a non-zero low half, under LOW_NIBBLE_POLICY = refuse only
  (30_encoding.md R53, D3). -/
  | nonZeroLowNibble (addr opcode : Byte)
  deriving DecidableEq, Repr

/-- The run state (10_state.md R24, 60_exceptions.md R153). -/
inductive RunState where
  | running
  /-- HLT was executed: final, nothing changes any more (43_nop_hlt.md R102). -/
  | halted
  /-- The model-level outcome of an opcode byte without a meaning: never final, never left (60_exceptions.md R153). -/
  | faulted (r : FaultReason)
  deriving DecidableEq, Repr

/-- Memory as the positions that differ from `memDefault`, in one canonical form (`Memory.wf`). A key is the unsigned
value of an address. -/
abbrev Memory := List Host.Cell

/-- What a position reads that the memory does not list. DESIGN CHOICE (log 10): the spec gives memory no initial
content (MEM0 is a parameter, 10_state.md R26, D9). -/
def memDefault : Byte := 0x00#8

/-- Addresses strictly rising. -/
def Memory.sorted : Memory → Bool
  | [] => true
  | [_] => true
  | c :: d :: rest => decide (c.1 < d.1) && Memory.sorted (d :: rest)

/-- The canonical form: addresses strictly rising, every one among the 256 positions (20_memory.md R30), and no entry
equal to what an unlisted position reads as. -/
def Memory.wf (m : Memory) : Bool :=
  m.sorted && m.all (fun c => decide (c.1 < Config.memPositions) && c.2 != memDefault)

/-- The state of the machine. -/
structure State where
  /-- AC, the accumulator (10_state.md R11). -/
  ac   : Byte
  /-- PC, the program counter (10_state.md R12). -/
  pc   : Byte
  /-- N, the negative condition code; `true` is 1 (10_state.md R15). -/
  n    : Bool
  /-- Z, the zero condition code; `true` is 1 (10_state.md R15). -/
  z    : Bool
  /-- RI, the instruction register (10_state.md R22). -/
  ri   : Byte
  /-- REM, the memory address register (10_state.md R22). -/
  rem  : Byte
  /-- RDM, the memory data register (10_state.md R22). -/
  rdm  : Byte
  /-- The current time of the control unit (10_state.md R23). -/
  time : Time
  /-- The run state (10_state.md R24). -/
  run  : RunState
  /-- MEM, the 256 memory positions (10_state.md R10, 20_memory.md R30). -/
  mem  : Memory
  deriving DecidableEq, Repr

/-- The state at the start of a run, every launch parameter an argument (10_state.md R26, 70_reset_and_hazards.md
R171): an instruction boundary (time t0), `Running`, PC0, AC0, N0, Z0 and MEM0 as given, and any value in the hidden
registers. -/
def State.launch (pc0 ac0 : Byte) (n0 z0 : Bool) (ri0 rem0 rdm0 : Byte) (mem0 : Memory) : State :=
  { ac := ac0, pc := pc0, n := n0, z := z0, ri := ri0, rem := rem0, rdm := rdm0, time := .t0, run := .running,
    mem := mem0 }

/-- The machine right after reset: the launch state with PC0 at its default (D8, log 7) and, where the spec gives no
value, 0 in AC, N, Z (DESIGN CHOICE, log 8) and in RI, REM, RDM (DESIGN CHOICE, log 9), and no position listed in
memory (DESIGN CHOICE, log 10). -/
def State.reset : State := State.launch Config.pc0 0x00#8 false false 0x00#8 0x00#8 0x00#8 []

/-- Why a step stops with a fault: the `Faulted` outcome of 60_exceptions.md R153, with the state it leaves (PC one
past the opcode byte, AC, N, Z and memory unchanged). -/
inductive Fault where
  /-- Raised by `step` at an instruction boundary whose opcode byte has one of the five undefined codes
  (30_encoding.md R56), inside an instruction whose RI holds such a byte (`resume`, log 28), and at a state already
  faulted so. Safe: the spec gives the code no meaning, and nothing can
  be proved of what follows (D4, log 3). -/
  | illegalOpcode (addr opcode : Byte) (after : State)
  /-- Raised by `stepWith` under LOW_NIBBLE_POLICY = refuse, which is not the model's policy (30_encoding.md R53), at a
  boundary and inside an instruction (`resume`, log 28), and at a state already faulted so. Safe: it stops where the default goes on (D3, log 2). -/
  | nonZeroLowNibble (addr opcode : Byte) (after : State)
  deriving DecidableEq, Repr

/-- Why a step refuses. -/
inductive Refusal where
  /-- Raised by an arm of `exec` whose instruction has no meaning yet; no arm is left in that state. Safe. -/
  | notModelled (mnemonic : String)
  deriving DecidableEq, Repr

end Sys2Proof.Machine
end

