-- ==== Sys2Proof/Machine/Ual.lean ====
section
/-! DEFINITION. The arithmetic and logic unit: five operations on the inputs X (from AC) and Y (from RDM)
(45_control_sequences.md R128). -/

namespace Sys2Proof.Machine

open Sys2Proof

/-- The five operation selects of the UAL (45_control_sequences.md R128). -/
inductive UalOp where
  | y | add | or | and | not
  deriving DecidableEq, Repr

/-- The output of the UAL (45_control_sequences.md R128); ADD is taken modulo 256 (41_arithmetic_logic.md R84, D7,
log 6). -/
def ual (op : UalOp) (x y : Byte) : Byte :=
  match op with
  | .y => y
  | .add => x + y
  | .or => x ||| y
  | .and => x &&& y
  | .not => ~~~x

end Sys2Proof.Machine
end

