-- ==== Sys2Proof/Machine/Flags.lean ====
section
/-! DEFINITION. The condition codes: N and Z are written together, with AC, from the value being loaded into AC, and by
nothing else (10_state.md R15 to R17). -/

namespace Sys2Proof.Machine

open Sys2Proof

/-- N of a value: its bit 7 (10_state.md R17, D6, log 5). -/
def flagN (v : Byte) : Bool := v.getLsbD 7

/-- Z of a value: 1 exactly when all eight bits are 0 (10_state.md R17, D6, log 5). -/
def flagZ (v : Byte) : Bool := v == 0x00#8

/-- `setNZ(v)`, the source's "atualiza N e Z" (10_state.md R17). -/
def setNZ (v : Byte) (s : State) : State := { s with n := flagN v, z := flagZ v }

/-- A load of AC with the flags, "carga AC, carga NZ": AC <- v; setNZ(v) (10_state.md R16). -/
def loadAC (v : Byte) (s : State) : State := setNZ v { s with ac := v }

/-- AC <- UAL(op) of AC and RDM, with the flags (45_control_sequences.md R128, R129). -/
def loadUal (op : UalOp) (s : State) : State := loadAC (ual op s.ac s.rdm) s

end Sys2Proof.Machine
end

