-- ==== Sys2Proof/Machine/Ops.lean ====
section
/-! DEFINITION. The named operations over memory and registers: the two access primitives of 20_memory.md, the increment
of PC, the fetch phase common to all instructions, the ends of an instruction ("goto t0", "Halt") and the one
model-level stop of 60_exceptions.md R153. The hardware takes no exception and returns from none (60_exceptions.md
R150, R154, R155), so there is no operation for either. -/

namespace Sys2Proof.Machine

open Sys2Proof

/-- The first entry for a key, or the default content. -/
def memLookup (m : Memory) (k : Nat) : Byte :=
  match m with
  | [] => memDefault
  | (j, v) :: rest => if j = k then v else memLookup rest k

/-- `MemRead(a, 1)`: the content of position `a`; every access succeeds (20_memory.md R31, R36). -/
def memRead (m : Memory) (a : Byte) : Byte := memLookup m a.toNat

/-- `MemWrite(a, 1, v)`: position `a` holds `v`, every other position is as before (20_memory.md R32). Writing the
default content takes the entry out, which keeps the canonical form. -/
def memWrite (m : Memory) (a v : Byte) : Memory :=
  m.filter (fun c => decide (c.1 < a.toNat)) ++ (if v = memDefault then [] else [(a.toNat, v)])
    ++ m.filter (fun c => decide (a.toNat < c.1))

/-- The host's load (70_reset_and_hazards.md R172, R174): bytes placed at consecutive addresses, modulo 256. -/
def loadBytes (m : Memory) (a : Byte) (bytes : List Byte) : Memory :=
  match bytes with
  | [] => m
  | v :: rest => loadBytes (memWrite m a v) (a + 1#8) rest

/-- `inc(PC)`: PC <- (PC + 1) mod 256 (10_state.md R14, D5, log 4). -/
def incPC (s : State) : State := { s with pc := s.pc + 1#8 }

/-- The fetch phase "Busca", times t0 to t2, the same for all instructions (45_control_sequences.md R112):
REM <- PC; Read; PC <- PC + 1; RI <- RDM. It ends where the execution phase begins, at t3. -/
def fetchPhase (s : State) : State :=
  { s with
    rem := s.pc
    rdm := memRead s.mem s.pc
    pc := s.pc + 1#8
    ri := memRead s.mem s.pc
    time := .t3 }

/-- "goto t0": the next time is t0, a new instruction boundary (45_control_sequences.md R130). -/
def gotoT0 (s : State) : State := { s with time := .t0 }

/-- "Halt", "Parar o processamento" (43_nop_hlt.md R101, 45_control_sequences.md R134): the sequence of times stops
where it is (log 12). -/
def halt (s : State) : State := { s with run := .halted }

/-- The run state `Faulted` (60_exceptions.md R153) in the state the fetch phase has left. -/
def faulted (r : FaultReason) (s : State) : State := { s with run := .faulted r }

/-- The model-level outcome `Faulted` of a step (60_exceptions.md R153): its reason with the state it leaves. -/
def faultOutcome (r : FaultReason) (after : State) : Host.Outcome State Fault Refusal :=
  match r with
  | .illegalOpcode a b => .fault (.illegalOpcode a b after)
  | .nonZeroLowNibble a b => .fault (.nonZeroLowNibble a b after)

/-- The one shared stop: the state becomes `Faulted` for a reason and the step answers that fault
(30_encoding.md R56, 60_exceptions.md R153; log 25). -/
def raiseFault (r : FaultReason) (s : State) : Host.Outcome State Fault Refusal := faultOutcome r (faulted r s)

end Sys2Proof.Machine
end

