-- ==== Sys2Proof/Machine/Operands.lean ====
section
/-! DEFINITION. The one operand form, the direct address `end` (30_encoding.md R54, 40_load_store.md R70), and what
reading, writing and jumping through it do to the registers of the organisation (45_control_sequences.md R116 to R122).
Each operation takes the state the fetch phase left: PC is the address of the operand byte. -/

namespace Sys2Proof.Machine

open Sys2Proof

/-- `end <- MEM(PC)`, times t3 and t4: REM <- PC; Read. The operand byte `e` is in RDM (45_control_sequences.md R116). -/
def readOperand (e : Byte) (s : State) : State := { s with rem := s.pc, rdm := e }

/-- `end <- MEM(PC); PC <- PC + 1`, as STA, LDA, ADD, OR, AND read their operand byte (40_load_store.md R70). -/
def fetchOperand (e : Byte) (s : State) : State := incPC (readOperand e s)

/-- The read of the memory operand, times t5 and t6: REM <- RDM; Read (45_control_sequences.md R117). -/
def readMem (e : Byte) (s : State) : State := { s with rem := e, rdm := memRead s.mem e }

/-- The write of the memory operand, times t5 to t7: REM <- RDM; RDM <- AC; Write (45_control_sequences.md R111,
R116). -/
def writeMem (e : Byte) (s : State) : State := { s with rem := e, rdm := s.ac, mem := memWrite s.mem e s.ac }

/-- A jump that is taken, times t3 to t5: REM <- PC; Read; PC <- RDM (45_control_sequences.md R122). -/
def jumpTo (e : Byte) (s : State) : State := { readOperand e s with pc := e }

/-- A conditional jump's execution phase (42_jumps.md R91, R92): taken, or the operand byte skipped without being read
(30_encoding.md R58; 90_conflicts.md C1, log 16). -/
def jumpIf (cond : Bool) (e : Byte) (s : State) : State := if cond then jumpTo e s else incPC s

end Sys2Proof.Machine
end

