-- ==== Sys2Proof/Machine/LoadStore.lean ====
section
/-! DEFINITION. The meanings of STA and LDA (40_load_store.md), and the shape that LDA shares with ADD, OR and AND. A
meaning takes the state at the instruction boundary and does the whole instruction, its fetch phase included, as the
pseudocode of each rule does (log 17). -/

namespace Sys2Proof.Machine

open Sys2Proof

/-- The instructions that load AC from the UAL with a memory operand: fetch; `end <- MEM(PC); PC <- PC + 1`; read of
position `end`; AC and the flags; goto t0 (45_control_sequences.md R117 to R120). -/
def loadFromMem (op : UalOp) (e : Byte) (s : State) : State :=
  gotoT0 (loadUal op (readMem e (fetchOperand e (fetchPhase s))))

/-- STA end: MEM(end) <- AC (40_load_store.md R71). -/
def execSta (e : Byte) (s : State) : Host.Outcome State Fault Refusal :=
  .next (gotoT0 (writeMem e (fetchOperand e (fetchPhase s))))

/-- LDA end: AC <- MEM(end), through UAL(Y); N and Z from it (40_load_store.md R72). -/
def execLda (e : Byte) (s : State) : Host.Outcome State Fault Refusal := .next (loadFromMem .y e s)

end Sys2Proof.Machine
end

