-- ==== Sys2Proof/Machine/Arithmetic.lean ====
section
/-! DEFINITION. The meanings of ADD, OR, AND and NOT (41_arithmetic_logic.md). -/

namespace Sys2Proof.Machine

open Sys2Proof

/-- ADD end: AC <- AC + MEM(end) modulo 256; N and Z from it (41_arithmetic_logic.md R80, R84). -/
def execAdd (e : Byte) (s : State) : Host.Outcome State Fault Refusal := .next (loadFromMem .add e s)

/-- OR end: AC <- AC or MEM(end), bitwise; N and Z from it (41_arithmetic_logic.md R81). -/
def execOr (e : Byte) (s : State) : Host.Outcome State Fault Refusal := .next (loadFromMem .or e s)

/-- AND end: AC <- AC and MEM(end), bitwise; N and Z from it (41_arithmetic_logic.md R82). -/
def execAnd (e : Byte) (s : State) : Host.Outcome State Fault Refusal := .next (loadFromMem .and e s)

/-- NOT: AC <- not AC, bitwise; N and Z from it (41_arithmetic_logic.md R83). -/
def execNot (s : State) : Host.Outcome State Fault Refusal := .next (gotoT0 (loadUal .not (fetchPhase s)))

end Sys2Proof.Machine
end

