-- ==== Sys2Proof/Machine/Jumps.lean ====
section
/-! DEFINITION. The meanings of JMP, JN and JZ (42_jumps.md). -/

namespace Sys2Proof.Machine

open Sys2Proof

/-- JMP end: PC <- end (42_jumps.md R90). -/
def execJmp (e : Byte) (s : State) : Host.Outcome State Fault Refusal := .next (gotoT0 (jumpTo e (fetchPhase s)))

/-- JN end: IF N=1 THEN PC <- end; otherwise the operand byte is skipped (42_jumps.md R91). -/
def execJn (e : Byte) (s : State) : Host.Outcome State Fault Refusal := .next (gotoT0 (jumpIf s.n e (fetchPhase s)))

/-- JZ end: IF Z=1 THEN PC <- end; otherwise the operand byte is skipped (42_jumps.md R92). -/
def execJz (e : Byte) (s : State) : Host.Outcome State Fault Refusal := .next (gotoT0 (jumpIf s.z e (fetchPhase s)))

end Sys2Proof.Machine
end

