-- ==== Sys2Proof/Machine/NopHlt.lean ====
section
/-! DEFINITION. The meanings of NOP and HLT (43_nop_hlt.md). -/

namespace Sys2Proof.Machine

open Sys2Proof

/-- NOP: nothing but the fetch phase (43_nop_hlt.md R100). -/
def execNop (s : State) : Host.Outcome State Fault Refusal := .next (gotoT0 (fetchPhase s))

/-- HLT: the run state becomes `Halted`, PC is one past the HLT; there is no "goto t0" (43_nop_hlt.md R101, R102). -/
def execHlt (s : State) : Host.Outcome State Fault Refusal := .next (halt (fetchPhase s))

end Sys2Proof.Machine
end

