-- ==== Sys2Proof/Syntax.lean ====
section
/-! DEFINITION. The instructions: the eleven rows of the source's Tabela 10.1 (00_scope.md R2, 30_encoding.md R55).
The operand `e` is `end`, an 8-bit absolute address (30_encoding.md R54). -/

namespace Sys2Proof

/-- The instruction set (00_scope.md R2): one constructor per row of the opcode table. -/
inductive Instr where
  /-- 0000 NOP: "nenhuma operação" (43_nop_hlt.md R100). -/
  | nop
  /-- 0001 STA end: MEM(end) <- AC (40_load_store.md R71). -/
  | sta (e : Byte)
  /-- 0010 LDA end: AC <- MEM(end) (40_load_store.md R72). -/
  | lda (e : Byte)
  /-- 0011 ADD end: AC <- MEM(end) + AC (41_arithmetic_logic.md R80). -/
  | add (e : Byte)
  /-- 0100 OR end: AC <- MEM(end) OR AC (41_arithmetic_logic.md R81). -/
  | or (e : Byte)
  /-- 0101 AND end: AC <- MEM(end) AND AC (41_arithmetic_logic.md R82). -/
  | and (e : Byte)
  /-- 0110 NOT: AC <- NOT AC (41_arithmetic_logic.md R83). -/
  | not
  /-- 1000 JMP end: PC <- end (42_jumps.md R90). -/
  | jmp (e : Byte)
  /-- 1001 JN end: IF N=1 THEN PC <- end (42_jumps.md R91). -/
  | jn (e : Byte)
  /-- 1010 JZ end: IF Z=1 THEN PC <- end (42_jumps.md R92). -/
  | jz (e : Byte)
  /-- 1111 HLT: "término de execução - (halt)" (43_nop_hlt.md R101). -/
  | hlt
  deriving DecidableEq, Repr

/-- The operand `end` of a two-byte instruction (30_encoding.md R50, R54); `none` for the one-byte instructions. -/
def Instr.operand? : Instr → Option Byte
  | .nop => none
  | .sta e => some e
  | .lda e => some e
  | .add e => some e
  | .or e => some e
  | .and e => some e
  | .not => none
  | .jmp e => some e
  | .jn e => some e
  | .jz e => some e
  | .hlt => none

/-- The length of an instruction in bytes (30_encoding.md R50): two with an operand, one without. -/
def Instr.length (i : Instr) : Nat :=
  match i.operand? with
  | none => 1
  | some _ => 2

end Sys2Proof
end

