-- ==== Sys2Proof/Machine/Dispatch.lean ====
section
/-! DEFINITION. The dispatch: the meaning of an instruction, executed from the state at its instruction boundary. -/

namespace Sys2Proof.Machine

open Sys2Proof

/-- One arm per row of the opcode table. -/
def exec (i : Instr) (s : State) : Host.Outcome State Fault Refusal :=
  match i with
  | .nop => Sys2Proof.Machine.execNop s
  | .sta e => Sys2Proof.Machine.execSta e s
  | .lda e => Sys2Proof.Machine.execLda e s
  | .add e => Sys2Proof.Machine.execAdd e s
  | .or e => Sys2Proof.Machine.execOr e s
  | .and e => Sys2Proof.Machine.execAnd e s
  | .not => Sys2Proof.Machine.execNot s
  | .jmp e => Sys2Proof.Machine.execJmp e s
  | .jn e => Sys2Proof.Machine.execJn e s
  | .jz e => Sys2Proof.Machine.execJz e s
  | .hlt => Sys2Proof.Machine.execHlt s

end Sys2Proof.Machine
end

