-- ==== Sys2Proof/Decode.lean ====
section
/-! DEFINITION. The decoder (total on any bytes, rejecting by name) and, after it, the encoder, both written from the
opcode map and the decoding procedure of the spec (30_encoding.md R50 to R58). -/

namespace Sys2Proof

/-- The decoded operation: what the control unit sees of an opcode byte, one of eleven mutually exclusive signals named
by the mnemonics (30_encoding.md R62). -/
inductive Mnemonic where
  | nop | sta | lda | add | or | and | not | jmp | jn | jz | hlt
  deriving DecidableEq, Repr

/-- The two instruction formats (30_encoding.md R51). -/
inductive Format where
  /-- One byte: NOP, NOT, HLT. -/
  | op
  /-- Two bytes, the second the operand `end`. -/
  | opEnd
  deriving DecidableEq, Repr

/-- Why an opcode byte selects no instruction (30_encoding.md R53, R56; 60_exceptions.md R153). -/
inductive Reject where
  /-- The code is one of 0111, 1011, 1100, 1101, 1110 (30_encoding.md R56). -/
  | illegalOpcode (opcode : Byte)
  /-- A defined code with a non-zero low half, under LOW_NIBBLE_POLICY = refuse only (30_encoding.md R53). -/
  | nonZeroLowNibble (opcode : Byte)
  deriving DecidableEq, Repr

/-- Why a list of bytes does not begin with an instruction. -/
inductive DecodeError where
  /-- There is no opcode byte. -/
  | noBytes
  /-- The code asks for an operand byte (30_encoding.md R50) and the list ends before it. -/
  | missingOperand (m : Mnemonic)
  /-- The opcode byte selects no instruction. -/
  | rejected (r : Reject)
  /-- Disassembly only: as many instructions as were asked for have been read and bytes are left. -/
  | bytesLeft
  deriving DecidableEq, Repr

/-- The policies the model runs under: the defaults of the spec, `ignore` (D3, log 2) and `fault` (D4, log 3). -/
def policies : Policies := { lowNibble := .ignore, undefOpcode := .fault }

/-- The 4-bit code of an opcode byte: bits 7 to 4 (30_encoding.md R52, D2). PRESUMED (log 1). -/
def codeOf (opcode : Byte) : BitVec 4 := opcode.extractLsb' Config.opcodeLsb 4

/-- The other half of an opcode byte: bits 3 to 0 (30_encoding.md R53). -/
def lowHalf (opcode : Byte) : BitVec 4 := opcode.extractLsb' (4 - Config.opcodeLsb) 4

/-- The map of the 4-bit code (30_encoding.md R55, R57); `none` for the five codes of R56. -/
def mnemonicOf (code : BitVec 4) : Option Mnemonic :=
  match code.toNat with
  | 0 => some .nop
  | 1 => some .sta
  | 2 => some .lda
  | 3 => some .add
  | 4 => some .or
  | 5 => some .and
  | 6 => some .not
  | 8 => some .jmp
  | 9 => some .jn
  | 10 => some .jz
  | 15 => some .hlt
  | _ => none

/-- The format of each instruction (30_encoding.md R51). -/
def Mnemonic.format : Mnemonic → Format
  | .nop => .op
  | .sta => .opEnd
  | .lda => .opEnd
  | .add => .opEnd
  | .or => .opEnd
  | .and => .opEnd
  | .not => .op
  | .jmp => .opEnd
  | .jn => .opEnd
  | .jz => .opEnd
  | .hlt => .op

/-- The instruction a decoded operation stands for, given the byte after the opcode byte, which a one-byte instruction
does not use (30_encoding.md R51, R54). -/
def Mnemonic.instr (m : Mnemonic) (e : Byte) : Instr :=
  match m with
  | .nop => .nop
  | .sta => .sta e
  | .lda => .lda e
  | .add => .add e
  | .or => .or e
  | .and => .and e
  | .not => .not
  | .jmp => .jmp e
  | .jn => .jn e
  | .jz => .jz e
  | .hlt => .hlt

/-- Decoding an opcode byte under given policies (30_encoding.md R53, R56, R57): an undefined code is looked at first,
so `IllegalOpcode` takes precedence over `NonZeroLowNibble` (60_exceptions.md R152). -/
def decodeOpcode (p : Policies) (opcode : Byte) : Except Reject Mnemonic :=
  match mnemonicOf (codeOf opcode) with
  | none =>
    match p.undefOpcode with
    | .fault => .error (.illegalOpcode opcode)
    | .nop1 => .ok .nop
  | some m =>
    match p.lowNibble with
    | .ignore => .ok m
    | .refuse => if lowHalf opcode = 0#4 then .ok m else .error (.nonZeroLowNibble opcode)

/-- Decoding the instruction at the head of a list of bytes under given policies; the answer carries the bytes that
follow it (30_encoding.md R57: the length is a function of the code alone). -/
def decodeWith (p : Policies) (bytes : List Byte) : Except DecodeError (Instr × List Byte) :=
  match bytes with
  | [] => .error .noBytes
  | b :: rest =>
    match decodeOpcode p b with
    | .error r => .error (.rejected r)
    | .ok m =>
      match m.format, rest with
      | .op, _ => .ok (m.instr 0#8, rest)
      | .opEnd, [] => .error (.missingOperand m)
      | .opEnd, e :: rest' => .ok (m.instr e, rest')

/-- The decoder of the model: `decodeWith` under the policies of the spec. -/
def decode (bytes : List Byte) : Except DecodeError (Instr × List Byte) := decodeWith policies bytes

/-- Disassembly of a list of bytes from its first byte on, at most `limit` instructions; it fails at the first byte
that does not begin an instruction (30_encoding.md R57). -/
def disassemble (limit : Nat) (bytes : List Byte) : Except DecodeError (List Instr) :=
  match limit, bytes with
  | _, [] => .ok []
  | 0, _ :: _ => .error .bytesLeft
  | n + 1, b :: rest =>
    match decode (b :: rest) with
    | .error r => .error r
    | .ok (i, rest') =>
      match disassemble n rest' with
      | .error r => .error r
      | .ok is => .ok (i :: is)

/-- The column "Código" of Tabela 10.1 (30_encoding.md R55). -/
def Instr.code : Instr → BitVec 4
  | .nop => 0b0000#4
  | .sta _ => 0b0001#4
  | .lda _ => 0b0010#4
  | .add _ => 0b0011#4
  | .or _ => 0b0100#4
  | .and _ => 0b0101#4
  | .not => 0b0110#4
  | .jmp _ => 0b1000#4
  | .jn _ => 0b1001#4
  | .jz _ => 0b1010#4
  | .hlt => 0b1111#4

/-- The opcode byte of an instruction: its code in the high half (30_encoding.md R52), zero in the low half, as R53
says a program should write it. -/
def Instr.opcodeByte (i : Instr) : Byte := i.code ++ 0#4

/-- The encoder: the bytes of an instruction at rising addresses (30_encoding.md R51, 20_memory.md R34). -/
def encode (i : Instr) : List Byte :=
  match i.operand? with
  | none => [i.opcodeByte]
  | some e => [i.opcodeByte, e]

/-- The two bytes of an instruction of at most two bytes whose `nbits` bits are `w`, numbered as spec/opcode_table.json
numbers them (bit 0 the least significant bit of the first byte); every bit above `nbits` is 0. -/
def tableBytes (nbits w : Nat) : List Byte :=
  let v := w % 2 ^ nbits
  [BitVec.ofNat 8 v, BitVec.ofNat 8 (v / 256)]

/-- The instruction the decoder reads from a word of the opcode table. -/
def decodeTableWord (nbits w : Nat) : Option Instr :=
  match decode (tableBytes nbits w) with
  | .ok (i, _) => some i
  | .error _ => none

end Sys2Proof
end

