-- ==== Sys2Proof/Machine/Control.lean ====
section
/-! DEFINITION. The control unit (Unidade de Controle): its seventeen signals as the Boolean equations of the source
give them from the current time, the decoded instruction and the flags (45_control_sequences.md R133 to R135). -/

namespace Sys2Proof.Machine

open Sys2Proof

/-- The control signals (45_control_sequences.md R135): sixteen with an equation in R133, and Halt (R134). A signal
not mentioned is inactive (R136). -/
structure Signals where
  /-- carga REM: REM stores its input. -/
  cargaREM     : Bool := false
  /-- incrementa PC: PC, a counter register, adds one. -/
  incrementaPC : Bool := false
  /-- carga RI: RI stores RDM. -/
  cargaRI      : Bool := false
  /-- sel: the multiplexer in front of REM passes PC (0) or RDM (1). -/
  sel          : Bool := false
  /-- carga RDM: RDM stores AC. -/
  cargaRDM     : Bool := false
  /-- Read: the memory delivers MEM[REM] into RDM. -/
  read         : Bool := false
  /-- Write: the memory stores RDM at REM. -/
  write        : Bool := false
  /-- UAL(Y). -/
  ualY         : Bool := false
  /-- UAL(ADD). -/
  ualADD       : Bool := false
  /-- UAL(OR). -/
  ualOR        : Bool := false
  /-- UAL(AND). -/
  ualAND       : Bool := false
  /-- UAL(NOT). -/
  ualNOT       : Bool := false
  /-- carga AC: AC stores the output of the UAL. -/
  cargaAC      : Bool := false
  /-- carga NZ: N and Z store what is formed from the output of the UAL. -/
  cargaNZ      : Bool := false
  /-- carga PC: PC stores RDM. -/
  cargaPC      : Bool := false
  /-- goto t0: the next time is t0. -/
  gotoT0       : Bool := false
  /-- Halt: "Parar o processamento". -/
  halt         : Bool := false
  deriving DecidableEq, Repr

/-- The decoded-instruction signals, derived from RI: at most one of the eleven is 1, none for an undefined code
(30_encoding.md R62; log 26). -/
def decoded (ri : Byte) : Option Mnemonic := mnemonicOf (codeOf ri)

/-- The control unit: the equations of 45_control_sequences.md R133, line by line, and `Halt = t3.HLT` (R134; DEDUCED,
log 23). `d` is the decoded instruction, `n` and `z` the flags. -/
def controlUnit (t : Time) (d : Option Mnemonic) (n z : Bool) : Signals :=
  let NOP := d == some .nop
  let STA := d == some .sta
  let LDA := d == some .lda
  let ADD := d == some .add
  let OR := d == some .or
  let AND := d == some .and
  let NOT := d == some .not
  let JMP := d == some .jmp
  let JN := d == some .jn
  let JZ := d == some .jz
  let HLT := d == some .hlt
  let t0 := t == .t0
  let t1 := t == .t1
  let t2 := t == .t2
  let t3 := t == .t3
  let t4 := t == .t4
  let t5 := t == .t5
  let t6 := t == .t6
  let t7 := t == .t7
  { cargaREM := t0 || (t3 && (STA || LDA || ADD || OR || AND || JMP || (JN && n) || (JZ && z)))
      || (t5 && (STA || LDA || ADD || OR || AND))
    incrementaPC := t1 || (t4 && (STA || LDA || ADD || OR || AND)) || (t3 && ((JN && !n) || (JZ && !z)))
    cargaRI := t2
    sel := t5 && (STA || LDA || ADD || OR || AND)
    cargaRDM := t6 && STA
    read := t1 || (t4 && (STA || LDA || ADD || OR || AND || JMP || (JN && n) || (JZ && z)))
      || (t6 && (LDA || ADD || OR || AND))
    write := t7 && STA
    ualY := t7 && LDA
    ualADD := t7 && ADD
    ualOR := t7 && OR
    ualAND := t7 && AND
    ualNOT := t3 && NOT
    cargaAC := (t7 && (LDA || ADD || OR || AND)) || (t3 && NOT)
    cargaNZ := (t7 && (LDA || ADD || OR || AND)) || (t3 && NOT)
    cargaPC := t5 && (JMP || (JN && n) || (JZ && z))
    gotoT0 := (t7 && (STA || LDA || ADD || OR || AND)) || (t3 && (NOP || NOT || (JN && !n) || (JZ && !z)))
      || (t5 && (JMP || (JN && n) || (JZ && z)))
    halt := t3 && HLT }

/-- The operation the five selects choose, `none` when none is active (45_control_sequences.md R128). -/
def Signals.ualOp (c : Signals) : Option UalOp :=
  if c.ualY then some .y
  else if c.ualADD then some .add
  else if c.ualOR then some .or
  else if c.ualAND then some .and
  else if c.ualNOT then some .not
  else none

end Sys2Proof.Machine
end

