-- ==== Sys2Proof/Machine/Organisation.lean ====
section
/-! DEFINITION. The organisation: the datapath of the (lost) Figura 10.1 as the transfers need it
(45_control_sequences.md R127), one time step of it (R136), and an instruction run time by time to the next instruction
boundary with its memory accesses and its number of times. -/

namespace Sys2Proof.Machine

open Sys2Proof

/-- The place of a time among the eight. -/
def timeIndex : Time → Nat
  | .t0 => 0 | .t1 => 1 | .t2 => 2 | .t3 => 3 | .t4 => 4 | .t5 => 5 | .t6 => 6 | .t7 => 7

/-- The time after a time in which neither "goto t0" nor "Halt" is active: the following one, and after t7 the free
value T7_ROLLOVER (45_control_sequences.md R130, R137; log 18). -/
def followingTime : Time → Time
  | .t0 => .t1 | .t1 => .t2 | .t2 => .t3 | .t3 => .t4 | .t4 => .t5 | .t5 => .t6 | .t6 => .t7
  | .t7 => Config.timeAfterT7

/-- The next time: t0 after "goto t0", none after "Halt" (the sequence stops, so the time stays), otherwise the
following one (45_control_sequences.md R130, R134). -/
def nextTime (c : Signals) (t : Time) : Time :=
  if c.halt then t else if c.gotoT0 then .t0 else followingTime t

/-- The output of the UAL under the control signals, X from AC and Y from RDM; a free value when no select is active
(45_control_sequences.md R128; log 19, log 22). -/
def ualOutput (c : Signals) (x y : Byte) : Byte :=
  match c.ualOp with
  | some op => ual op x y
  | none => Config.ualNoSelect x y

/-- All the transfers of one time together: every register with its load signal active stores the value its input had
at the beginning of the step (45_control_sequences.md R136, R127). -/
def datapath (c : Signals) (s : State) : State :=
  let u := ualOutput c s.ac s.rdm
  { ac := if c.cargaAC then u else s.ac
    pc := if c.cargaPC then s.rdm else if c.incrementaPC then s.pc + 1#8 else s.pc
    n := if c.cargaNZ then flagN u else s.n
    z := if c.cargaNZ then flagZ u else s.z
    ri := if c.cargaRI then s.rdm else s.ri
    rem := if c.cargaREM then (if c.sel then s.rdm else s.pc) else s.rem
    rdm := if c.read then memRead s.mem s.rem else if c.cargaRDM then s.ac else s.rdm
    time := nextTime c s.time
    run := if c.halt then .halted else s.run
    mem := if c.write then memWrite s.mem s.rem s.rdm else s.mem }

/-- The control signals in a state (45_control_sequences.md R135). Out of `Running` no signal is asserted any more
(R134, 43_nop_hlt.md R102, 60_exceptions.md R153). -/
def signalsAt (s : State) : Signals :=
  match s.run with
  | .running => controlUnit s.time (decoded s.ri) s.n s.z
  | .halted => {}
  | .faulted _ => {}

/-- One time step (45_control_sequences.md R136). Out of `Running` there is none. -/
def tick (s : State) : State :=
  match s.run with
  | .running => datapath (signalsAt s) s
  | .halted => s
  | .faulted _ => s

/-- `k` time steps. -/
def ticks (k : Nat) (s : State) : State :=
  match k with
  | 0 => s
  | k + 1 => ticks k (tick s)

/-- One access to the memory (20_memory.md R31, R32, R43). -/
inductive Access where
  | read (addr : Byte)
  | write (addr value : Byte)
  deriving DecidableEq, Repr

/-- The accesses of one time: at most one Read or Write (20_memory.md R39, R43). -/
def accessesOf (c : Signals) (s : State) : List Access :=
  (if c.read then [.read s.rem] else []) ++ (if c.write then [.write s.rem s.rdm] else [])

/-- What running time steps has given: the state, how many times it took, and the accesses in order. -/
structure Trace where
  final    : State
  times    : Nat
  accesses : List Access
  deriving DecidableEq, Repr

/-- Time steps up to the end of the instruction in progress (the time that gives "goto t0" or "Halt"), at most `limit`
of them; none out of `Running`. From an instruction boundary a limit of 8 reaches the end of every instruction
(70_reset_and_hazards.md R178). -/
def runTimes (limit : Nat) (s : State) : Trace :=
  match limit with
  | 0 => { final := s, times := 0, accesses := [] }
  | k + 1 =>
    let c := signalsAt s
    if s.run ≠ .running then { final := s, times := 0, accesses := [] }
    else if c.gotoT0 || c.halt then { final := tick s, times := 1, accesses := accessesOf c s }
    else
      let r := runTimes k (tick s)
      { final := r.final, times := r.times + 1, accesses := accessesOf c s ++ r.accesses }

/-- The reason of a `Faulted` outcome for a rejected opcode byte read at address `a` (60_exceptions.md R153). -/
def faultReason (a : Byte) : Reject → FaultReason
  | .illegalOpcode b => .illegalOpcode a b
  | .nonZeroLowNibble b => .nonZeroLowNibble a b

/-- The rest of the fetch phase of an instruction in progress: to time t3 (45_control_sequences.md R112). -/
def finishFetch (s : State) : State :=
  match s.time with
  | .t0 => ticks 3 s
  | .t1 => ticks 2 s
  | .t2 => ticks 1 s
  | _ => s

/-- What a step does in a state inside an instruction, which no run of steps from a boundary reaches (log 17): the
instruction in progress goes on time by time to its end. An opcode byte in RI that selects no instruction is the
model-level fault, as at a boundary, in the state the instruction has reached. DESIGN CHOICE (log 28): the spec does not
speak of such a fault. The address it reports is PC - 1, which is `a` up to t4 and for every undefined code; for a defined
code with a non-zero low half, under `refuse` alone, from t5 to t7 of STA, LDA, ADD, OR and AND it is `a + 1`, and PC is
left at `a + 2`. -/
def resume (p : Policies) (s : State) : Host.Outcome State Fault Refusal :=
  let f := finishFetch s
  match decodeOpcode p f.ri with
  | .error r => raiseFault (faultReason (f.pc - 1#8) r) f
  | .ok _ => .next (runTimes (8 - timeIndex f.time) f).final

end Sys2Proof.Machine
end

