-- ==== Sys2Proof/Machine/Fetch.lean ====
section
/-! DEFINITION. What a step reads at an instruction boundary, and what it answers in a halted machine. -/

namespace Sys2Proof.Machine

open Sys2Proof

/-- The instruction at PC, decoded afresh from memory (30_encoding.md R57): the opcode byte at PC, the operand byte at
PC + 1 modulo 256 (20_memory.md R34). Looking at the byte after the opcode byte has no effect on any state; the accesses
the hardware performs are those of 20_memory.md R43 (log 16). -/
def fetchInstr (p : Policies) (s : State) : Except Reject Instr :=
  match decodeOpcode p (memRead s.mem s.pc) with
  | .error r => .error r
  | .ok m => .ok (m.instr (memRead s.mem (s.pc + 1#8)))

/-- The fault of an opcode byte that selects no instruction: after the fetch phase, and nothing else
(30_encoding.md R56, 60_exceptions.md R153, R163). -/
def rejectAtFetch (r : Reject) (s : State) : Host.Outcome State Fault Refusal :=
  raiseFault (faultReason s.pc r) (fetchPhase s)

/-- The halted machine: it does nothing more and nothing changes, for ever (43_nop_hlt.md R102; log 12). -/
def haltedStep (s : State) : Host.Outcome State Fault Refusal := .next s

/-- The faulted state is never left (60_exceptions.md R153; log 25). -/
def faultedStep (r : FaultReason) (s : State) : Host.Outcome State Fault Refusal := faultOutcome r s

end Sys2Proof.Machine
end

