-- ==== Sys2Proof/Machine/Step.lean ====
section
/-! DEFINITION. One step of the machine: one instruction (00_scope.md R8, D19; log 17). -/

namespace Sys2Proof.Machine

open Sys2Proof

/-- One step under given decoding policies (60_exceptions.md R153): at an instruction boundary the instruction at PC is
decoded and executed; a halted machine stays as it is; a faulted one stays faulted. -/
def stepWith (p : Policies) (s : State) : Host.Outcome State Fault Refusal :=
  match s.run with
  | .halted => haltedStep s
  | .faulted r => faultedStep r s
  | .running =>
    if s.time = .t0 then
      match fetchInstr p s with
      | .ok i => exec i s
      | .error r => rejectAtFetch r s
    else resume p s

/-- One step of the model, under the policies of the spec. -/
def step (s : State) : Host.Outcome State Fault Refusal := stepWith policies s

/-- The state with an instruction of the opcode table stored where the next step fetches: its bytes at PC and PC + 1
modulo 256, the machine running at an instruction boundary (log 24). -/
def State.withFetchWord (s : State) (nbits w : Nat) : State :=
  { s with mem := loadBytes s.mem s.pc (tableBytes nbits w), run := .running, time := .t0 }

end Sys2Proof.Machine
end

