-- ==== Sys2Proof/Machine/Sequences.lean ====
section
/-! DEFINITION. The organisation a second and a third time, as the source gives it beside the equations: the
register transfers with their control signals (Tabela 10.2, 45_control_sequences.md R129), the second-level sequences of
transfers (R112, R115 to R125), and the timing tables (Tabelas 10.3 and 10.4, R131 and R132). -/

namespace Sys2Proof.Machine

open Sys2Proof

/-- The transfers of the second-level sequences (45_control_sequences.md R129): the eleven rows of Tabela 10.2, and
Read and Write, which are themselves control signals. -/
inductive Transfer where
  /-- REM <- PC -/
  | remFromPc
  /-- PC <- PC + 1 -/
  | pcPlusOne
  /-- RI <- RDM -/
  | riFromRdm
  /-- REM <- RDM -/
  | remFromRdm
  /-- RDM <- AC -/
  | rdmFromAc
  /-- AC <- RDM; atualiza N e Z -/
  | acFromRdm
  /-- AC <- AC + RDM; atualiza N e Z -/
  | acPlusRdm
  /-- AC <- AC or RDM; atualiza N e Z -/
  | acOrRdm
  /-- AC <- AC and RDM; atualiza N e Z -/
  | acAndRdm
  /-- AC <- not(AC); atualiza N e Z -/
  | acNotAc
  /-- PC <- RDM -/
  | pcFromRdm
  /-- Read -/
  | read
  /-- Write -/
  | write
  deriving DecidableEq, Repr

/-- Tabela 10.2 (45_control_sequences.md R129): the control signals of each transfer. -/
def Transfer.signals : Transfer → Signals
  | .remFromPc => { sel := false, cargaREM := true }
  | .pcPlusOne => { incrementaPC := true }
  | .riFromRdm => { cargaRI := true }
  | .remFromRdm => { sel := true, cargaREM := true }
  | .rdmFromAc => { cargaRDM := true }
  | .acFromRdm => { ualY := true, cargaAC := true, cargaNZ := true }
  | .acPlusRdm => { ualADD := true, cargaAC := true, cargaNZ := true }
  | .acOrRdm => { ualOR := true, cargaAC := true, cargaNZ := true }
  | .acAndRdm => { ualAND := true, cargaAC := true, cargaNZ := true }
  | .acNotAc => { ualNOT := true, cargaAC := true, cargaNZ := true }
  | .pcFromRdm => { cargaPC := true }
  | .read => { read := true }
  | .write => { write := true }

/-- What a transfer writes, into a state that other transfers of the same time may have written already, from the
state `old` at the beginning of the time (45_control_sequences.md R136). -/
def Transfer.apply (old : State) (tr : Transfer) (s : State) : State :=
  match tr with
  | .remFromPc => { s with rem := old.pc }
  | .pcPlusOne => { s with pc := old.pc + 1#8 }
  | .riFromRdm => { s with ri := old.rdm }
  | .remFromRdm => { s with rem := old.rdm }
  | .rdmFromAc => { s with rdm := old.ac }
  | .acFromRdm => loadAC old.rdm s
  | .acPlusRdm => loadAC (old.ac + old.rdm) s
  | .acOrRdm => loadAC (old.ac ||| old.rdm) s
  | .acAndRdm => loadAC (old.ac &&& old.rdm) s
  | .acNotAc => loadAC (~~~old.ac) s
  | .pcFromRdm => { s with pc := old.rdm }
  | .read => { s with rdm := memRead old.mem old.rem }
  | .write => { s with mem := memWrite old.mem old.rem old.rdm }

/-- The transfers of one time together, all from the old values (45_control_sequences.md R136). -/
def applyTransfers (ts : List Transfer) (s : State) : State :=
  ts.foldl (fun acc tr => tr.apply s acc) s

/-- The execution phase of STA at t3 to t5, shared with LDA, ADD, OR and AND (45_control_sequences.md R116 to R120). -/
def addressSequence : Time → List Transfer
  | .t3 => [.remFromPc]
  | .t4 => [.read, .pcPlusOne]
  | .t5 => [.remFromRdm]
  | _ => []

/-- The execution phase of LDA, ADD, OR, AND, which differ in the transfer into AC at t7 (R117 to R120). -/
def dataSequence (last : Transfer) : Time → List Transfer
  | .t6 => [.read]
  | .t7 => [last]
  | t => addressSequence t

/-- The execution phase of JMP (R122), and of JN and JZ when they jump (R123, R124). -/
def jumpSequence : Time → List Transfer
  | .t3 => [.remFromPc]
  | .t4 => [.read]
  | .t5 => [.pcFromRdm]
  | _ => []

/-- The execution phase of an untaken JN or JZ (R114, R123, R124). -/
def skipSequence : Time → List Transfer
  | .t3 => [.pcPlusOne]
  | _ => []

/-- The execution phase of every instruction at the times t3 to t7 (45_control_sequences.md R115 to R125). -/
def executionSequence (m : Mnemonic) (n z : Bool) (t : Time) : List Transfer :=
  match m with
  | .nop => []
  | .sta =>
    match t with
    | .t6 => [.rdmFromAc]
    | .t7 => [.write]
    | t => addressSequence t
  | .lda => dataSequence .acFromRdm t
  | .add => dataSequence .acPlusRdm t
  | .or => dataSequence .acOrRdm t
  | .and => dataSequence .acAndRdm t
  | .not =>
    match t with
    | .t3 => [.acNotAc]
    | _ => []
  | .jmp => jumpSequence t
  | .jn => if n then jumpSequence t else skipSequence t
  | .jz => if z then jumpSequence t else skipSequence t
  | .hlt => []

/-- The second-level sequence of an instruction: the transfers of each time, the fetch phase first
(45_control_sequences.md R112, R115 to R125). -/
def transferSequence (m : Mnemonic) (n z : Bool) (t : Time) : List Transfer :=
  match t with
  | .t0 => [.remFromPc]
  | .t1 => [.read, .pcPlusOne]
  | .t2 => [.riFromRdm]
  | t => executionSequence m n z t

/-- The column "last time" of 70_reset_and_hazards.md R178: the time that gives "goto t0" or "Halt". -/
def lastTime (m : Mnemonic) (n z : Bool) : Time :=
  match m with
  | .nop => .t3
  | .sta => .t7
  | .lda => .t7
  | .add => .t7
  | .or => .t7
  | .and => .t7
  | .not => .t3
  | .jmp => .t5
  | .jn => if n then .t5 else .t3
  | .jz => if z then .t5 else .t3
  | .hlt => .t3

/-- One time of an instruction read off its sequence: its transfers, then t0 after the last time (for HLT the run state
`Halted` and no next time), otherwise the following time (45_control_sequences.md R115 to R125, R130). -/
def sequenceStep (m : Mnemonic) (s : State) : State :=
  let s' := applyTransfers (transferSequence m s.n s.z s.time) s
  if s.time = lastTime m s.n s.z then
    if m = .hlt then { s' with run := .halted } else { s' with time := .t0 }
  else { s' with time := followingTime s.time }

/-- Tabelas 10.3 and 10.4 (45_control_sequences.md R131, R132), cell by cell: the row of a time, the column of an
instruction (of JN and JZ one for each value of the flag). -/
def timingTable (t : Time) (m : Mnemonic) (n z : Bool) : Signals :=
  match t with
  | .t0 => { sel := false, cargaREM := true }
  | .t1 => { read := true, incrementaPC := true }
  | .t2 => { cargaRI := true }
  | .t3 =>
    match m with
    | .sta => { sel := false, cargaREM := true }
    | .lda => { sel := false, cargaREM := true }
    | .add => { sel := false, cargaREM := true }
    | .or => { sel := false, cargaREM := true }
    | .and => { sel := false, cargaREM := true }
    | .not => { ualNOT := true, cargaAC := true, cargaNZ := true, gotoT0 := true }
    | .jmp => { sel := false, cargaREM := true }
    | .jn => if n then { sel := false, cargaREM := true } else { incrementaPC := true, gotoT0 := true }
    | .jz => if z then { sel := false, cargaREM := true } else { incrementaPC := true, gotoT0 := true }
    | .nop => { gotoT0 := true }
    | .hlt => { halt := true }
  | .t4 =>
    match m with
    | .sta => { read := true, incrementaPC := true }
    | .lda => { read := true, incrementaPC := true }
    | .add => { read := true, incrementaPC := true }
    | .or => { read := true, incrementaPC := true }
    | .and => { read := true, incrementaPC := true }
    | .not => {}
    | .jmp => { read := true }
    | .jn => if n then { read := true } else {}
    | .jz => if z then { read := true } else {}
    | .nop => {}
    | .hlt => {}
  | .t5 =>
    match m with
    | .sta => { sel := true, cargaREM := true }
    | .lda => { sel := true, cargaREM := true }
    | .add => { sel := true, cargaREM := true }
    | .or => { sel := true, cargaREM := true }
    | .and => { sel := true, cargaREM := true }
    | .not => {}
    | .jmp => { cargaPC := true, gotoT0 := true }
    | .jn => if n then { cargaPC := true, gotoT0 := true } else {}
    | .jz => if z then { cargaPC := true, gotoT0 := true } else {}
    | .nop => {}
    | .hlt => {}
  | .t6 =>
    match m with
    | .sta => { cargaRDM := true }
    | .lda => { read := true }
    | .add => { read := true }
    | .or => { read := true }
    | .and => { read := true }
    | .not => {}
    | .jmp => {}
    | .jn => {}
    | .jz => {}
    | .nop => {}
    | .hlt => {}
  | .t7 =>
    match m with
    | .sta => { write := true, gotoT0 := true }
    | .lda => { ualY := true, cargaAC := true, cargaNZ := true, gotoT0 := true }
    | .add => { ualADD := true, cargaAC := true, cargaNZ := true, gotoT0 := true }
    | .or => { ualOR := true, cargaAC := true, cargaNZ := true, gotoT0 := true }
    | .and => { ualAND := true, cargaAC := true, cargaNZ := true, gotoT0 := true }
    | .not => {}
    | .jmp => {}
    | .jn => {}
    | .jz => {}
    | .nop => {}
    | .hlt => {}

/-- Two sets of signals asserted in one time. -/
def Signals.union (c d : Signals) : Signals :=
  { cargaREM := c.cargaREM || d.cargaREM
    incrementaPC := c.incrementaPC || d.incrementaPC
    cargaRI := c.cargaRI || d.cargaRI
    sel := c.sel || d.sel
    cargaRDM := c.cargaRDM || d.cargaRDM
    read := c.read || d.read
    write := c.write || d.write
    ualY := c.ualY || d.ualY
    ualADD := c.ualADD || d.ualADD
    ualOR := c.ualOR || d.ualOR
    ualAND := c.ualAND || d.ualAND
    ualNOT := c.ualNOT || d.ualNOT
    cargaAC := c.cargaAC || d.cargaAC
    cargaNZ := c.cargaNZ || d.cargaNZ
    cargaPC := c.cargaPC || d.cargaPC
    gotoT0 := c.gotoT0 || d.gotoT0
    halt := c.halt || d.halt }

/-- The signals a list of transfers needs, by Tabela 10.2 (45_control_sequences.md R129). -/
def transferSignals (ts : List Transfer) : Signals := ts.foldl (fun c tr => c.union tr.signals) {}

/-- The signal that ends an instruction at its last time: "goto t0", for HLT "Halt" (45_control_sequences.md R130,
R134). -/
def endSignals (t : Time) (m : Mnemonic) (n z : Bool) : Signals :=
  if t = lastTime m n z then (if m = .hlt then { halt := true } else { gotoT0 := true }) else {}

end Sys2Proof.Machine
end

