-- ==== Sys2Proof/Machine/Timing.lean ====
section
/-! DEFINITION. The number of times and the memory accesses of every instruction, as the spec tabulates them
(70_reset_and_hazards.md R178, 20_memory.md R43). No step depends on either (R179); they are what the organisation must
show when it runs an instruction. -/

namespace Sys2Proof.Machine

open Sys2Proof

/-- The column "times" of 70_reset_and_hazards.md R178: from t0 to the time that gives "goto t0" or "Halt". -/
def timesTable (m : Mnemonic) (n z : Bool) : Nat :=
  match m with
  | .nop => 4
  | .sta => 8
  | .lda => 8
  | .add => 8
  | .or => 8
  | .and => 8
  | .not => 4
  | .jmp => 6
  | .jn => if n then 6 else 4
  | .jz => if z then 6 else 4
  | .hlt => 4

/-- The column "memory reads" of 70_reset_and_hazards.md R178. -/
def readsTable (m : Mnemonic) (n z : Bool) : Nat :=
  match m with
  | .nop => 1
  | .sta => 2
  | .lda => 3
  | .add => 3
  | .or => 3
  | .and => 3
  | .not => 1
  | .jmp => 2
  | .jn => if n then 2 else 1
  | .jz => if z then 2 else 1
  | .hlt => 1

/-- The column "memory writes" of 70_reset_and_hazards.md R178. -/
def writesTable (m : Mnemonic) : Nat :=
  match m with
  | .nop => 0
  | .sta => 1
  | .lda => 0
  | .add => 0
  | .or => 0
  | .and => 0
  | .not => 0
  | .jmp => 0
  | .jn => 0
  | .jz => 0
  | .hlt => 0

/-- A memory access that is a read. -/
def Access.isRead : Access → Bool
  | .read _ => true
  | .write _ _ => false

/-- The accesses of each instruction in order (20_memory.md R43): `a` is PC at the boundary, `e` the operand byte, `ac`
the accumulator. -/
def accessTable (m : Mnemonic) (n z : Bool) (a e ac : Byte) : List Access :=
  match m with
  | .nop => [.read a]
  | .not => [.read a]
  | .hlt => [.read a]
  | .sta => [.read a, .read (a + 1#8), .write e ac]
  | .lda => [.read a, .read (a + 1#8), .read e]
  | .add => [.read a, .read (a + 1#8), .read e]
  | .or => [.read a, .read (a + 1#8), .read e]
  | .and => [.read a, .read (a + 1#8), .read e]
  | .jmp => [.read a, .read (a + 1#8)]
  | .jn => if n then [.read a, .read (a + 1#8)] else [.read a]
  | .jz => if z then [.read a, .read (a + 1#8)] else [.read a]

end Sys2Proof.Machine
end

