-- ==== Sys2Proof/WellFormed.lean ====
section
/-! DEFINITION. Well-formedness. An instruction's operand names one of the 256 positions (20_memory.md R30, R36): with
an 8-bit operand that holds of every instruction. A list of bytes is the word of one instruction when it has the
length its code gives (30_encoding.md R50, R55, R57) and, as R53 says a program should write it, a zero low half. -/

namespace Sys2Proof

/-- Every operand is the address of an existing memory position (20_memory.md R30). -/
def Instr.wellFormed (i : Instr) : Bool :=
  match i.operand? with
  | none => true
  | some e => decide (e.toNat < Config.memPositions)

/-- The column "bytes" of the opcode map (30_encoding.md R55): the length in bytes of the instruction whose 4-bit code
is given, `none` for the five undefined codes (R56). -/
def wordLength? (code : BitVec 4) : Option Nat :=
  match code.toNat with
  | 0 => some 1
  | 1 => some 2
  | 2 => some 2
  | 3 => some 2
  | 4 => some 2
  | 5 => some 2
  | 6 => some 1
  | 8 => some 2
  | 9 => some 2
  | 10 => some 2
  | 15 => some 1
  | _ => none

/-- The bytes are exactly one instruction, written as 30_encoding.md R53 says a program should write it: a first byte
with a defined code (R56) and a zero low half (R53), and as many bytes as the code asks for (R50). -/
def wellFormedWord (bytes : List Byte) : Bool :=
  match bytes with
  | [] => false
  | b :: _ => wordLength? (b.extractLsb' Config.opcodeLsb 4) == some bytes.length
    && b.extractLsb' (4 - Config.opcodeLsb) 4 == 0#4

end Sys2Proof
end

