-- ==== Sys2Proof/Safety.lean ====
section
/-! DEFINITION. The terms the statements use: instruction boundaries, what stands at PC, the programmer-visible state,
the invariants, and what counts as a safe step. -/

namespace Sys2Proof.Machine

open Sys2Proof

/-- A running machine at an instruction boundary: time t0 (00_scope.md R9). -/
abbrev atBoundary (s : State) : Prop := s.run = .running ∧ s.time = .t0

/-- The opcode byte `b = MEM[a]`, `a` being PC. -/
def opcodeAt (s : State) : Byte := memRead s.mem s.pc

/-- The operand byte `e = MEM[(a + 1) mod 256]`. -/
def operandAt (s : State) : Byte := memRead s.mem (s.pc + 1#8)

/-- The 4-bit code of the opcode byte, written without the decoder: bits 7 to 4 (30_encoding.md R52). -/
def codeAt (s : State) : BitVec 4 := (opcodeAt s).extractLsb' 4 4

/-- The five codes absent from Tabela 10.1 (30_encoding.md R56). -/
def undefinedCodes : List (BitVec 4) := [0b0111#4, 0b1011#4, 0b1100#4, 0b1101#4, 0b1110#4]

/-- What the instruction at PC does in the organisation, from the boundary to its end: at most eight times
(45_control_sequences.md R130). -/
def instrTrace (s : State) : Trace := runTimes 8 s

/-- The programmer-visible state and the run state are the same (10_state.md R10, R24); RI, REM and RDM may differ
(R25). -/
abbrev sameVisible (s t : State) : Prop :=
  s.ac = t.ac ∧ s.pc = t.pc ∧ s.n = t.n ∧ s.z = t.z ∧ s.mem = t.mem ∧ s.run = t.run ∧ s.time = t.time

/-- The flags describe AC (10_state.md R19). -/
abbrev flagsAgree (s : State) : Prop := s.n = s.ac.getLsbD 7 ∧ s.z = (s.ac == 0x00#8)

/-- The invariant of the machine between steps: memory has its canonical form, a running machine is at t0, and a halted
one at t3, where the sequence stopped (10_state.md R23, R24; 45_control_sequences.md R125, R134). -/
abbrev State.Inv (s : State) : Prop :=
  s.mem.wf = true ∧ (s.run = .running → s.time = .t0) ∧ (s.run = .halted → s.time = .t3)

/-- A safe step: it answers a next state. -/
def safeStep (s : State) : Prop := ∃ t, step s = .next t

end Sys2Proof.Machine
end

