-- ==== Sys2Proof/Certificates/Slice0/Obligations.lean ====
section
/-! DEFINITION. The statements for the provers. A rule is cited as R<n> of spec/; "log <n>" is notes/assumptions/<n>.md. -/

open Sys2Proof Sys2Proof.Machine

/-! ### Encoding -/

/-- Sanity: words written out bit by bit from the formats and the opcode map (R51, R55) decode to their instructions.
The place of the code in the byte is the spec's decision D2 (log 1). -/
def Obligations.WordsFromTheOpcodeMapDecode : Prop :=
  decode [0b00000000#8] = .ok (.nop, []) ∧
  decode [0b00010000#8, 0b10000000#8] = .ok (.sta 0x80#8, []) ∧
  decode [0b00100000#8, 0b10000000#8] = .ok (.lda 0x80#8, []) ∧
  decode [0b00110000#8, 0b10000000#8] = .ok (.add 0x80#8, []) ∧
  decode [0b01100000#8] = .ok (.not, []) ∧
  decode [0b10010000#8, 0b10000000#8] = .ok (.jn 0x80#8, []) ∧
  decode [0b11110000#8] = .ok (.hlt, []) ∧
  decode [0b01110000#8] = .error (.rejected (.illegalOpcode 0b01110000#8))

/-- The complete map of the 4-bit code (R55): eleven codes with their mnemonic, format and length, and the five
codes of R56 that have none; together they are all sixteen. The place of the code in the byte is D2 (log 1). -/
def Obligations.CodeMapOfTabela101 : Prop :=
  (∀ row ∈ ([(0b0000#4, .nop, .op), (0b0001#4, .sta, .opEnd), (0b0010#4, .lda, .opEnd), (0b0011#4, .add, .opEnd),
        (0b0100#4, .or, .opEnd), (0b0101#4, .and, .opEnd), (0b0110#4, .not, .op), (0b1000#4, .jmp, .opEnd),
        (0b1001#4, .jn, .opEnd), (0b1010#4, .jz, .opEnd), (0b1111#4, .hlt, .op)]
        : List (BitVec 4 × Mnemonic × Format)),
      mnemonicOf row.1 = some row.2.1 ∧ row.2.1.format = row.2.2 ∧
      ∀ e : Byte, (row.2.1.instr e).code = row.1 ∧
        encode (row.2.1.instr e) = (if row.2.2 = .op then [row.1 ++ 0#4] else [row.1 ++ 0#4, e]) ∧
        ((row.2.1.instr e).length, (row.2.1.instr e).operand?) =
          (if row.2.2 = .op then (1, none) else (2, some e))) ∧
  ∀ c : BitVec 4, mnemonicOf c = none ↔ c ∈ undefinedCodes

/-- Every byte of high half `c` and low half `x`: the low half takes no part in decoding, a code of the map selects its
instruction, one of the five others is rejected by name. Rests on the spec's decisions D2, D3 and D4 (logs 1, 2, 3). -/
def Obligations.LowHalfOfTheOpcodeByteIsIgnored : Prop :=
  ∀ (c x : BitVec 4),
    (∀ m, mnemonicOf c = some m → decodeOpcode policies (c ++ x) = .ok m) ∧
    (c ∈ undefinedCodes → decodeOpcode policies (c ++ x) = .error (.illegalOpcode (c ++ x)))

/-- The alternatives the spec names and does not take (D3, D4): `refuse` rejects a defined code with a non-zero low
half, an undefined code taking precedence (R152); `nop1` reads an undefined code as NOP. Logs 2, 3 and 27. -/
def Obligations.AlternativeDecodingPolicies : Prop :=
  ∀ (c x : BitVec 4),
    (c ∈ undefinedCodes →
      decodeOpcode ⟨.refuse, .fault⟩ (c ++ x) = .error (.illegalOpcode (c ++ x)) ∧
      decodeOpcode ⟨.ignore, .nop1⟩ (c ++ x) = .ok .nop) ∧
    (∀ m, mnemonicOf c = some m →
      (x = 0#4 → decodeOpcode ⟨.refuse, .fault⟩ (c ++ x) = .ok m) ∧
      (x ≠ 0#4 → decodeOpcode ⟨.refuse, .fault⟩ (c ++ x) = .error (.nonZeroLowNibble (c ++ x))) ∧
      decodeOpcode ⟨.ignore, .nop1⟩ (c ++ x) = .ok m)

/-- HEADLINE (decode and encode agree): decoding the encoding of any instruction, whatever bytes follow it, gives the
instruction back with exactly those bytes left; and the disassembly of any sequence of encoded instructions is that
sequence. Rests on D2 and D3 (logs 1, 2). -/
def Obligations.DecodeOfEncodeIsTheInstruction : Prop :=
  (∀ (i : Instr) (rest : List Byte), i.wellFormed = true → decode (encode i ++ rest) = .ok (i, rest)) ∧
  ∀ is : List Instr, (∀ i ∈ is, i.wellFormed = true) →
    disassemble is.length (is.flatMap encode) = .ok is

/-- The other direction: whatever decodes is one word of the instruction's length followed by the rest; the word
differs from the instruction's encoding at most in the low half of its first byte, and is the encoding when it is a
well-formed word; every well-formed word is the encoding of an instruction. Rests on D2 and D3 (logs 1, 2). -/
def Obligations.EncodeOfDecodeIsTheWord : Prop :=
  (∀ (bytes rest : List Byte) (i : Instr), decode bytes = .ok (i, rest) →
    ∃ w, bytes = w ++ rest ∧ w.length = i.length ∧ w.tail = (encode i).tail ∧
      (∀ b ∈ w.head?, (encode i).head? = some (b &&& 0xF0#8)) ∧
      (wellFormedWord w = true → encode i = w)) ∧
  ∀ w : List Byte, wellFormedWord w = true → ∃ i, encode i = w

/-! ### The instructions

In each statement: what the instruction does to every field of the state, for every state and operand; and what the
machine does with it at an instruction boundary, with its memory accesses in order. Where its code stands in the opcode
byte is the spec's decision D2 (log 1): that is `EachCodeSelectsItsInstruction`, not these. -/

/-- At every instruction boundary the code in bits 7 to 4 of the byte at PC selects the instruction, with the byte after
it as operand, whatever the low half; the step is that instruction's meaning. Rests on D2 and D3 (logs 1, 2). -/
def Obligations.EachCodeSelectsItsInstruction : Prop :=
  (∀ (x : BitVec 4) (e : Byte) (rest : List Byte),
    decode ((0b0000#4 ++ x) :: rest) = .ok (.nop, rest) ∧
    decode ((0b0001#4 ++ x) :: e :: rest) = .ok (.sta e, rest) ∧
    decode ((0b0010#4 ++ x) :: e :: rest) = .ok (.lda e, rest) ∧
    decode ((0b0011#4 ++ x) :: e :: rest) = .ok (.add e, rest) ∧
    decode ((0b0100#4 ++ x) :: e :: rest) = .ok (.or e, rest) ∧
    decode ((0b0101#4 ++ x) :: e :: rest) = .ok (.and e, rest) ∧
    decode ((0b0110#4 ++ x) :: rest) = .ok (.not, rest) ∧
    decode ((0b1000#4 ++ x) :: e :: rest) = .ok (.jmp e, rest) ∧
    decode ((0b1001#4 ++ x) :: e :: rest) = .ok (.jn e, rest) ∧
    decode ((0b1010#4 ++ x) :: e :: rest) = .ok (.jz e, rest) ∧
    decode ((0b1111#4 ++ x) :: rest) = .ok (.hlt, rest)) ∧
  ∀ s : State, atBoundary s →
    (codeAt s = 0b0000#4 → step s = exec .nop s) ∧
    (codeAt s = 0b0001#4 → step s = exec (.sta (operandAt s)) s) ∧
    (codeAt s = 0b0010#4 → step s = exec (.lda (operandAt s)) s) ∧
    (codeAt s = 0b0011#4 → step s = exec (.add (operandAt s)) s) ∧
    (codeAt s = 0b0100#4 → step s = exec (.or (operandAt s)) s) ∧
    (codeAt s = 0b0101#4 → step s = exec (.and (operandAt s)) s) ∧
    (codeAt s = 0b0110#4 → step s = exec .not s) ∧
    (codeAt s = 0b1000#4 → step s = exec (.jmp (operandAt s)) s) ∧
    (codeAt s = 0b1001#4 → step s = exec (.jn (operandAt s)) s) ∧
    (codeAt s = 0b1010#4 → step s = exec (.jz (operandAt s)) s) ∧
    (codeAt s = 0b1111#4 → step s = exec .hlt s)

/-- NOP (R100): PC is one further, nothing else that a program can see changes; RI, REM and RDM as in every fetch. -/
def Obligations.NopOnlyAdvancesThePc : Prop :=
  (Instr.nop.code = 0b0000#4 ∧ ∃ b, encode .nop = [b]) ∧
  (∀ s : State, exec .nop s = .next { s with
      pc := s.pc + 1#8, ri := memRead s.mem s.pc, rem := s.pc, rdm := memRead s.mem s.pc, time := .t0 }) ∧
  ∀ s : State, atBoundary s → decodeOpcode policies (opcodeAt s) = .ok .nop →
    step s = exec .nop s ∧ (instrTrace s).accesses = [.read s.pc]

/-- STA (R71): MEM[end] <- AC; AC and the flags are not written; every other position reads as before. RI, REM and RDM
are left as the transfers of R116 leave them. -/
def Obligations.StaStoresTheAccumulator : Prop :=
  (∀ e : Byte, (Instr.sta e).code = 0b0001#4 ∧ ∃ b, encode (.sta e) = [b, e]) ∧
  (∀ (s : State) (e : Byte), ∃ t, exec (.sta e) s = .next t ∧
    t = { s with
      mem := t.mem, pc := s.pc + 2#8, ri := memRead s.mem s.pc, rem := e, rdm := s.ac, time := .t0 } ∧
    memRead t.mem e = s.ac ∧ ∀ a, a ≠ e → memRead t.mem a = memRead s.mem a) ∧
  ∀ s : State, atBoundary s → decodeOpcode policies (opcodeAt s) = .ok .sta →
    step s = exec (.sta (operandAt s)) s ∧
    (instrTrace s).accesses = [.read s.pc, .read (s.pc + 1#8), .write (operandAt s) s.ac]

/-- LDA (R72): AC <- MEM[end]; N <- v[7]; Z <- (v == 0); memory unchanged. RI, REM and RDM as the transfers of R117 leave
them. -/
def Obligations.LdaLoadsTheAccumulator : Prop :=
  (∀ e : Byte, (Instr.lda e).code = 0b0010#4 ∧ ∃ b, encode (.lda e) = [b, e]) ∧
  (∀ (s : State) (e : Byte), exec (.lda e) s = .next { s with
      ac := memRead s.mem e
      n := (memRead s.mem e).getLsbD 7
      z := decide (memRead s.mem e = 0x00#8)
      pc := s.pc + 2#8, ri := memRead s.mem s.pc, rem := e, rdm := memRead s.mem e, time := .t0 }) ∧
  ∀ s : State, atBoundary s → decodeOpcode policies (opcodeAt s) = .ok .lda →
    step s = exec (.lda (operandAt s)) s ∧
    (instrTrace s).accesses = [.read s.pc, .read (s.pc + 1#8), .read (operandAt s)]

/-- ADD (R80): AC <- (unsigned(AC) + unsigned(m)) mod 256; N and Z by setNZ of the 8-bit result, as R72 writes it out;
memory unchanged. RI, REM and RDM as the transfers of R118 leave them. -/
def Obligations.AddLoadsTheSumModulo256 : Prop :=
  (∀ e : Byte, (Instr.add e).code = 0b0011#4 ∧ ∃ b, encode (.add e) = [b, e]) ∧
  (∀ (s : State) (e : Byte), ∃ t, exec (.add e) s = .next t ∧
    t.ac.toNat = (s.ac.toNat + (memRead s.mem e).toNat) % 256 ∧
    t = { s with
      ac := t.ac, n := t.ac.getLsbD 7, z := decide (t.ac = 0x00#8)
      pc := s.pc + 2#8, ri := memRead s.mem s.pc, rem := e, rdm := memRead s.mem e, time := .t0 }) ∧
  ∀ s : State, atBoundary s → decodeOpcode policies (opcodeAt s) = .ok .add →
    step s = exec (.add (operandAt s)) s ∧
    (instrTrace s).accesses = [.read s.pc, .read (s.pc + 1#8), .read (operandAt s)]

/-- OR (R81): r[i] = AC[i] or m[i]; N and Z by setNZ of the result, as R72 writes it out; memory unchanged. RI, REM and
RDM as the transfers of R119 leave them. -/
def Obligations.OrLoadsTheBitwiseOr : Prop :=
  (∀ e : Byte, (Instr.or e).code = 0b0100#4 ∧ ∃ b, encode (.or e) = [b, e]) ∧
  (∀ (s : State) (e : Byte), ∃ t, exec (.or e) s = .next t ∧
    (∀ i, i < 8 → t.ac.getLsbD i = (s.ac.getLsbD i || (memRead s.mem e).getLsbD i)) ∧
    t = { s with
      ac := t.ac, n := t.ac.getLsbD 7, z := decide (t.ac = 0x00#8)
      pc := s.pc + 2#8, ri := memRead s.mem s.pc, rem := e, rdm := memRead s.mem e, time := .t0 }) ∧
  ∀ s : State, atBoundary s → decodeOpcode policies (opcodeAt s) = .ok .or →
    step s = exec (.or (operandAt s)) s ∧
    (instrTrace s).accesses = [.read s.pc, .read (s.pc + 1#8), .read (operandAt s)]

/-- AND (R82): r[i] = AC[i] and m[i]; N and Z by setNZ of the result, as R72 writes it out; memory unchanged. RI, REM and
RDM as the transfers of R120 leave them. -/
def Obligations.AndLoadsTheBitwiseAnd : Prop :=
  (∀ e : Byte, (Instr.and e).code = 0b0101#4 ∧ ∃ b, encode (.and e) = [b, e]) ∧
  (∀ (s : State) (e : Byte), ∃ t, exec (.and e) s = .next t ∧
    (∀ i, i < 8 → t.ac.getLsbD i = (s.ac.getLsbD i && (memRead s.mem e).getLsbD i)) ∧
    t = { s with
      ac := t.ac, n := t.ac.getLsbD 7, z := decide (t.ac = 0x00#8)
      pc := s.pc + 2#8, ri := memRead s.mem s.pc, rem := e, rdm := memRead s.mem e, time := .t0 }) ∧
  ∀ s : State, atBoundary s → decodeOpcode policies (opcodeAt s) = .ok .and →
    step s = exec (.and (operandAt s)) s ∧
    (instrTrace s).accesses = [.read s.pc, .read (s.pc + 1#8), .read (operandAt s)]

/-- NOT (R83): r[i] = 1 - AC[i], r = 0xFF - unsigned(AC); N is the complement of the old AC[7], Z is 1 exactly when the
old AC was 0xFF; signed(r) = -signed(AC) - 1; NOT twice restores AC and sets the flags from it; memory unchanged. -/
def Obligations.NotLoadsTheComplement : Prop :=
  (Instr.not.code = 0b0110#4 ∧ ∃ b, encode .not = [b]) ∧
  (∀ s : State, ∃ t, exec .not s = .next t ∧
    (∀ i, i < 8 → t.ac.getLsbD i = !s.ac.getLsbD i) ∧ t.ac.toNat = 255 - s.ac.toNat ∧
    t.ac.toInt = -s.ac.toInt - 1 ∧
    t = { s with
      ac := t.ac, n := !s.ac.getLsbD 7, z := decide (s.ac = 0xFF#8)
      pc := s.pc + 1#8, ri := memRead s.mem s.pc, rem := s.pc, rdm := memRead s.mem s.pc, time := .t0 } ∧
    t.n = t.ac.getLsbD 7 ∧ t.z = decide (t.ac = 0x00#8) ∧
    ∃ u, exec .not t = .next u ∧ u.ac = s.ac ∧ u.n = s.ac.getLsbD 7 ∧ u.z = decide (s.ac = 0x00#8)) ∧
  ∀ s : State, atBoundary s → decodeOpcode policies (opcodeAt s) = .ok .not →
    step s = exec .not s ∧ (instrTrace s).accesses = [.read s.pc]

/-- JMP (R90): PC <- end, the flags neither written nor read; everything else that a program can see is unchanged. RI, REM
and RDM as the transfers of R122 leave them. -/
def Obligations.JmpLoadsThePc : Prop :=
  (∀ e : Byte, (Instr.jmp e).code = 0b1000#4 ∧ ∃ b, encode (.jmp e) = [b, e]) ∧
  (∀ (s : State) (e : Byte), exec (.jmp e) s = .next { s with
      pc := e, ri := memRead s.mem s.pc, rem := s.pc + 1#8, rdm := e, time := .t0 }) ∧
  ∀ s : State, atBoundary s → decodeOpcode policies (opcodeAt s) = .ok .jmp →
    step s = exec (.jmp (operandAt s)) s ∧ (instrTrace s).accesses = [.read s.pc, .read (s.pc + 1#8)]

/-- JN (R91): PC <- end if N = 1; otherwise PC = a + 2 and the operand byte is not read. RI, REM and RDM as the
transfers of R123 leave them. -/
def Obligations.JnJumpsIfNegative : Prop :=
  (∀ e : Byte, (Instr.jn e).code = 0b1001#4 ∧ ∃ b, encode (.jn e) = [b, e]) ∧
  (∀ (s : State) (e : Byte),
    (s.n = true → exec (.jn e) s = .next { s with
      pc := e, ri := memRead s.mem s.pc, rem := s.pc + 1#8, rdm := e, time := .t0 }) ∧
    (s.n = false → exec (.jn e) s = .next { s with
      pc := s.pc + 2#8, ri := memRead s.mem s.pc, rem := s.pc, rdm := memRead s.mem s.pc, time := .t0 })) ∧
  ∀ s : State, atBoundary s → decodeOpcode policies (opcodeAt s) = .ok .jn →
    step s = exec (.jn (operandAt s)) s ∧
    (instrTrace s).accesses = if s.n then [.read s.pc, .read (s.pc + 1#8)] else [.read s.pc]

/-- JZ (R92): PC <- end if Z = 1; otherwise PC = a + 2 and the operand byte is not read. RI, REM and RDM as the
transfers of R124 leave them. -/
def Obligations.JzJumpsIfZero : Prop :=
  (∀ e : Byte, (Instr.jz e).code = 0b1010#4 ∧ ∃ b, encode (.jz e) = [b, e]) ∧
  (∀ (s : State) (e : Byte),
    (s.z = true → exec (.jz e) s = .next { s with
      pc := e, ri := memRead s.mem s.pc, rem := s.pc + 1#8, rdm := e, time := .t0 }) ∧
    (s.z = false → exec (.jz e) s = .next { s with
      pc := s.pc + 2#8, ri := memRead s.mem s.pc, rem := s.pc, rdm := memRead s.mem s.pc, time := .t0 })) ∧
  ∀ s : State, atBoundary s → decodeOpcode policies (opcodeAt s) = .ok .jz →
    step s = exec (.jz (operandAt s)) s ∧
    (instrTrace s).accesses = if s.z then [.read s.pc, .read (s.pc + 1#8)] else [.read s.pc]

/-- HLT (R101): the run state becomes Halted and PC is one past the HLT; AC, N, Z and memory are unchanged; RI, REM
and RDM as in every fetch. What the time is afterwards is the model's choice (log 12) and not said here. -/
def Obligations.HltHaltsOnePastItself : Prop :=
  (Instr.hlt.code = 0b1111#4 ∧ ∃ b, encode .hlt = [b]) ∧
  (∀ s : State, ∃ t, exec .hlt s = .next t ∧ t = { s with
      run := .halted
      pc := s.pc + 1#8, ri := memRead s.mem s.pc, rem := s.pc, rdm := memRead s.mem s.pc, time := t.time }) ∧
  ∀ s : State, atBoundary s → decodeOpcode policies (opcodeAt s) = .ok .hlt →
    step s = exec .hlt s ∧ (instrTrace s).accesses = [.read s.pc]

/-! ### Arithmetic laws -/

/-- R84 (D7, log 6): the result of ADD is the signed sum when that lies in -128..127, and otherwise differs from it by
exactly 256. -/
def Obligations.AddIsTheSignedSumOrOffBy256 : Prop :=
  ∀ (s : State) (e : Byte), ∃ t, exec (.add e) s = .next t ∧
    let sum := s.ac.toInt + (memRead s.mem e).toInt
    (-128 ≤ sum ∧ sum ≤ 127 → t.ac.toInt = sum) ∧
    (127 < sum → t.ac.toInt = sum - 256) ∧
    (sum < -128 → t.ac.toInt = sum + 256)

/-- R85 (its derived second half): the carry and the signed overflow of ADD can be told from the operands and the
result. -/
def Obligations.CarryAndOverflowShowInTheResult : Prop :=
  ∀ (s : State) (e : Byte), ∃ t, exec (.add e) s = .next t ∧
    let m := memRead s.mem e
    (256 ≤ s.ac.toNat + m.toNat ↔ t.ac.toNat < m.toNat) ∧
    ((s.ac.toInt + m.toInt < -128 ∨ 127 < s.ac.toInt + m.toInt) ↔
      (s.ac.getLsbD 7 = m.getLsbD 7 ∧ t.ac.getLsbD 7 ≠ s.ac.getLsbD 7))

/-- R83 corner case 4 and the negation of R86: NOT gives -signed(AC) - 1; NOT and then ADD of a position that holds 1
gives -signed(AC), except that 0x80 gives 0x80 again; NOT twice restores AC, with the flags from it. -/
def Obligations.NotThenAddOneNegates : Prop :=
  ∀ (s : State) (e : Byte), ∃ t u v, exec .not s = .next t ∧ exec .not t = .next v ∧ exec (.add e) t = .next u ∧
    t.ac.toInt = -s.ac.toInt - 1 ∧ v.ac = s.ac ∧ flagsAgree v ∧
    (memRead s.mem e = 0x01#8 →
      (s.ac ≠ 0x80#8 → u.ac.toInt = -s.ac.toInt) ∧ (s.ac = 0x80#8 → u.ac = 0x80#8) ∧ flagsAgree u)

/-! ### Condition codes -/

/-- R16: N and Z are written by exactly the instructions that write AC (codes 0010 to 0110), at the same time step as
AC, and by no other. The values they take are D6 (log 5) and are stated elsewhere. -/
def Obligations.FlagsAreWrittenExactlyWithAc : Prop :=
  (∀ (i : Instr) (s t : State), exec i s = .next t →
    i.code ∉ [0b0010#4, 0b0011#4, 0b0100#4, 0b0101#4, 0b0110#4] → t.ac = s.ac ∧ t.n = s.n ∧ t.z = s.z) ∧
  (∀ (i : Instr), i.code ∈ [0b0010#4, 0b0011#4, 0b0100#4, 0b0101#4, 0b0110#4] → ∀ (s t s' t' : State),
    exec i s = .next t → exec i { s with n := s'.n, z := s'.z } = .next t' → t' = t) ∧
  (∀ (tm : Time) (d : Option Mnemonic) (n z : Bool), (controlUnit tm d n z).cargaNZ = (controlUnit tm d n z).cargaAC) ∧
  ∀ s : State, (signalsAt s).cargaAC = false → (tick s).ac = s.ac ∧ (tick s).n = s.n ∧ (tick s).z = s.z

/-- R17 (D6, log 5): after each of the five instructions that load AC, N is 1 exactly when AC is negative, Z exactly
when AC is 0, and never both. -/
def Obligations.FlagsDescribeTheLoadedValue : Prop :=
  ∀ (i : Instr) (s : State), i.code ∈ [0b0010#4, 0b0011#4, 0b0100#4, 0b0101#4, 0b0110#4] →
    ∃ t, exec i s = .next t ∧ (t.n = true ↔ t.ac.toInt < 0) ∧
      (t.z = true ↔ ∀ k, k < 8 → t.ac.getLsbD k = false) ∧
      ¬(t.n = true ∧ t.z = true) ∧ flagsAgree t

/-- HEADLINE (R19, derived there from D6, log 5): that N and Z describe AC is an invariant of every step, from every
state, inside an instruction too. -/
def Obligations.FlagsAgreementIsKeptByEveryStep : Prop :=
  ∀ (p : Policies) (s t : State), flagsAgree s → (stepWith p s = .next t ∨ tick s = t) → flagsAgree t

/-- R18: N is read by JN alone and Z by JZ alone. Whatever the flags held, an instruction other than JN and JZ leaves
the same AC, PC, memory and run state; JN does not consult Z, JZ does not consult N. -/
def Obligations.OnlyConditionalJumpsReadTheFlags : Prop :=
  ∀ (i : Instr) (s : State) (n z : Bool), ∃ t t',
    exec i s = .next t ∧ exec i { s with n := n, z := z } = .next t' ∧
    ((i.code = 0b1001#4 → n = s.n) → (i.code = 0b1010#4 → z = s.z) →
      t'.ac = t.ac ∧ t'.pc = t.pc ∧ t'.mem = t.mem ∧ t'.run = t.run)

/-! ### Program counter -/

/-- R13: PC after the fetch phase, and at the next instruction boundary, for the instruction at PC. -/
def Obligations.PcAtTheNextBoundary : Prop :=
  ∀ (s : State) (i : Instr), atBoundary s → fetchInstr policies s = .ok i →
    (ticks 3 s).pc = s.pc + 1#8 ∧ ∃ t, step s = .next t ∧ t.pc = match i with
      | .nop => s.pc + 1#8
      | .not => s.pc + 1#8
      | .hlt => s.pc + 1#8
      | .sta _ => s.pc + 2#8
      | .lda _ => s.pc + 2#8
      | .add _ => s.pc + 2#8
      | .or _ => s.pc + 2#8
      | .and _ => s.pc + 2#8
      | .jmp _ => memRead s.mem (s.pc + 1#8)
      | .jn _ => if s.n then memRead s.mem (s.pc + 1#8) else s.pc + 2#8
      | .jz _ => if s.z then memRead s.mem (s.pc + 1#8) else s.pc + 2#8

/-- R14 (D5, log 4): PC runs from 0xFF into 0x00. The one-byte instructions at 0xFF go on at 0x00; a two-byte data
instruction at 0xFF reads its operand byte at 0x00 and goes on at 0x01. -/
def Obligations.PcWrapsAtTheTop : Prop :=
  ∀ s : State, s.pc = 0xFF#8 →
    (incPC s).pc = 0x00#8 ∧ operandAt s = memRead s.mem 0x00#8 ∧
    (∃ t, exec .nop s = .next t ∧ t.pc = 0x00#8) ∧
    (∀ e, ∃ t, exec (.lda e) s = .next t ∧ t.pc = 0x01#8) ∧
    (∀ e, s.n = false → ∃ t, exec (.jn e) s = .next t ∧ t.pc = 0x01#8)

/-! ### Memory -/

/-- R32 and R111: a write sets one position and leaves every other unchanged, leaves REM = a and RDM = v, is made in
three phases at t5, t6 and t7 of STA, and only STA writes. The address stored to is the instruction's operand. -/
def Obligations.OnlyStaWritesMemory : Prop :=
  (∀ (s t : State) (e : Byte), exec (.sta e) s = .next t →
    memRead t.mem e = s.ac ∧ (∀ a, a ≠ e → memRead t.mem a = memRead s.mem a) ∧ t.rem = e ∧ t.rdm = s.ac) ∧
  (∀ (i : Instr) (s t : State), exec i s = .next t → i.code ≠ 0b0001#4 →
    ∀ a, memRead t.mem a = memRead s.mem a) ∧
  (∀ (tm : Time) (d : Option Mnemonic) (n z : Bool),
    ((controlUnit tm d n z).write = true ↔ tm = .t7 ∧ d = some .sta) ∧
    ((controlUnit tm d n z).cargaRDM = true ↔ tm = .t6 ∧ d = some .sta)) ∧
  (∀ n z : Bool, controlUnit .t5 (some .sta) n z = { sel := true, cargaREM := true } ∧
    controlUnit .t6 (some .sta) n z = { cargaRDM := true } ∧
    controlUnit .t7 (some .sta) n z = { write := true, gotoT0 := true }) ∧
  ∀ s : State, s.run = .running → ((signalsAt s).write = false → (tick s).mem = s.mem) ∧
    ((signalsAt s).cargaREM = true → (signalsAt s).sel = true → (tick s).rem = s.rdm) ∧
    ((signalsAt s).cargaRDM = true → (tick s).rdm = s.ac) ∧
    ((signalsAt s).write = true → ∀ a, memRead (tick s).mem a = if a = s.rem then s.rdm else memRead s.mem a)

/-- The frame of STA (R71): every register but PC and the hidden RI, REM, RDM is unchanged, the flags and the run state
are, and every byte outside the position `end` reads as before. -/
def Obligations.FrameOfSta : Prop :=
  ∀ (s t : State) (e : Byte), exec (.sta e) s = .next t →
    t.ac = s.ac ∧ t.n = s.n ∧ t.z = s.z ∧ t.run = s.run ∧ ∀ a, a ≠ e → memRead t.mem a = memRead s.mem a

/-- The frame of LDA, ADD, OR, AND and NOT (R72, R80 to R83): the run state and every byte of memory are unchanged;
what changes is AC, N, Z, PC and the hidden registers. -/
def Obligations.FrameOfTheAccumulatorLoads : Prop :=
  ∀ (i : Instr) (s t : State), i.code ∈ [0b0010#4, 0b0011#4, 0b0100#4, 0b0101#4, 0b0110#4] → exec i s = .next t →
    t.run = s.run ∧ ∀ a, memRead t.mem a = memRead s.mem a

/-- The frame of NOP, JMP, JN, JZ and HLT (R90 to R92, R100, R101): AC, N, Z and every byte of memory are unchanged,
and, but for HLT, the run state. -/
def Obligations.FrameOfTheOthers : Prop :=
  ∀ (i : Instr) (s t : State), i.code ∈ [0b0000#4, 0b1000#4, 0b1001#4, 0b1010#4, 0b1111#4] → exec i s = .next t →
    t.ac = s.ac ∧ t.n = s.n ∧ t.z = s.z ∧ (∀ a, memRead t.mem a = memRead s.mem a) ∧
      (i.code ≠ 0b1111#4 → t.run = s.run)

/-- Equal memories are equal data: two memories in canonical form that read the same everywhere are the same list. The
form and the default content are the model's own (log 10). -/
def Obligations.CanonicalMemoriesThatReadTheSameAreEqual : Prop :=
  ∀ m m' : Memory, m.wf = true → m'.wf = true → (∀ a : Byte, memRead m a = memRead m' a) → m = m'

/-- R41 (derived): a store is seen by the very next fetch, and a store on the storing instruction's own bytes does not
change the instruction in progress. -/
def Obligations.StoresAreSeenByTheNextFetch : Prop :=
  ∀ (s : State) (e : Byte), atBoundary s → fetchInstr policies s = .ok (.sta e) →
    ∃ t, step s = .next t ∧ atBoundary t ∧ t.pc = s.pc + 2#8 ∧
      (∀ a, memRead t.mem a = if a = e then s.ac else memRead s.mem a) ∧
      (opcodeAt t = if e = s.pc + 2#8 then s.ac else memRead s.mem (s.pc + 2#8)) ∧
      (operandAt t = if e = s.pc + 3#8 then s.ac else memRead s.mem (s.pc + 3#8)) ∧
      ∀ i, decode [opcodeAt t, operandAt t] = .ok (i, []) → step t = exec i t

/-! ### Steps, runs and stops -/

/-- A step runs the decoded instruction (R12, R57): when the bytes at PC decode, at an instruction boundary of a running
machine, the step is exec of that instruction in the same state, with nothing around it. -/
def Obligations.StepRunsTheInstructionAtPc : Prop :=
  ∀ (s : State) (i : Instr) (rest : List Byte), atBoundary s →
    decode [opcodeAt s, operandAt s] = .ok (i, rest) → step s = exec i s

/-- R56, R153 (D4, log 3): an undefined code at PC stops the step with IllegalOpcode(a, b) after the fetch phase: PC is
one past the opcode byte, AC, N, Z and memory are unchanged, the run state is Faulted. The spec gives no more of that
state than these; that the fault carries a whole state, with RI, REM and RDM as the fetch phase leaves them (R112, R163)
and the time t3, is the model's choice (log 25). -/
def Obligations.UndefinedCodeFaultsAfterTheFetch : Prop :=
  ∀ s : State, atBoundary s → codeAt s ∈ undefinedCodes →
    step s = .fault (.illegalOpcode s.pc (opcodeAt s) { s with
      pc := s.pc + 1#8, ri := opcodeAt s, rem := s.pc, rdm := opcodeAt s, time := .t3
      run := .faulted (.illegalOpcode s.pc (opcodeAt s)) })

/-- R36, R150, R153 (D2, D3, D4; logs 1, 2, 3): a running machine at a boundary answers a next state exactly when the
code at PC is one of the eleven; nothing else can stop it. -/
def Obligations.EveryDefinedCodeCompletes : Prop :=
  ∀ s : State, atBoundary s → (safeStep s ↔ codeAt s ∉ undefinedCodes)

/-- No step refuses, in any state and under any policy: every instruction has its meaning. -/
def Obligations.NoStepRefuses : Prop :=
  ∀ (p : Policies) (s : State) (r : Refusal), stepWith p s ≠ .refused r

/-- R153 (log 25): a faulted machine stays faulted, with the same reason, in the same state. -/
def Obligations.FaultedStateIsNeverLeft : Prop :=
  ∀ (p : Policies) (s : State) (a b : Byte),
    (s.run = .faulted (.illegalOpcode a b) → stepWith p s = .fault (.illegalOpcode a b s) ∧ tick s = s) ∧
    (s.run = .faulted (.nonZeroLowNibble a b) → stepWith p s = .fault (.nonZeroLowNibble a b s) ∧ tick s = s)

/-- R53, R153 under LOW_NIBBLE_POLICY = refuse, which is not the model's policy (logs 2, 27): a defined code with a
non-zero low half faults after the fetch phase, an undefined code still with IllegalOpcode (R152). That the fault carries
a whole state, with RI, REM and RDM as the fetch phase leaves them (R112, R163) and the time t3, where the spec gives only
PC, AC, N, Z and memory, is the model's choice (log 25). -/
def Obligations.RefusePolicyFaultsNonZeroLowHalf : Prop :=
  ∀ s : State, atBoundary s →
    (codeAt s ∉ undefinedCodes → (opcodeAt s).extractLsb' 0 4 ≠ 0#4 →
      stepWith ⟨.refuse, .fault⟩ s = .fault (.nonZeroLowNibble s.pc (opcodeAt s) { s with
        pc := s.pc + 1#8, ri := opcodeAt s, rem := s.pc, rdm := opcodeAt s, time := .t3
        run := .faulted (.nonZeroLowNibble s.pc (opcodeAt s)) })) ∧
    (codeAt s ∈ undefinedCodes → stepWith ⟨.refuse, .fault⟩ s = step s) ∧
    ((opcodeAt s).extractLsb' 0 4 = 0#4 → stepWith ⟨.refuse, .fault⟩ s = step s)

/-- A run starts Running, HLT makes the machine Halted, no other instruction changes the run state, and in Halted nothing
changes, by any number of steps or of times, and no access is made (R24). That Halted is final is the spec's decision D11;
the spec says there is no further step (U8), and that a step of a halted machine answers next with the same state, rather
than ending the run, is the model's choice (log 12). -/
def Obligations.OnlyHltHaltsAndHaltedIsFinal : Prop :=
  (∀ (pc0 ac0 ri rem rdm : Byte) (n0 z0 : Bool) (mem0 : Memory),
    (State.launch pc0 ac0 n0 z0 ri rem rdm mem0).run = .running) ∧
  (∀ s : State, ∃ t, exec .hlt s = .next t ∧ t.run = .halted) ∧
  (∀ (i : Instr) (s t : State), exec i s = .next t → i ≠ .hlt → t.run = s.run) ∧
  ∀ (s : State) (k : Nat), s.run = .halted → Sys2Proof.core.run k s = .next s ∧ ticks k s = s ∧
    (runTimes k s).accesses = []

/-- R25, R27 (derived): the hidden registers cannot be observed. At an instruction boundary RI, REM and RDM can be
anything: every run of one step or more gives the same outcome, hidden registers included, in which RI, REM and RDM
have been overwritten. -/
def Obligations.RunsIgnoreTheHiddenRegisters : Prop :=
  ∀ (s s' : State) (k : Nat), atBoundary s → sameVisible s s' → 0 < k →
    Sys2Proof.core.run k s = Sys2Proof.core.run k s'

/-! ### Start of a run -/

/-- R26, R171 (D8, D9): with any launch parameters the machine starts running at an instruction boundary with PC = PC0 and
AC, N, Z and memory as given; and the reset state is the launch with the values of logs 7 to 10. -/
def Obligations.LaunchStartsAtABoundary : Prop :=
  (∀ (pc0 ac0 ri rem rdm : Byte) (n0 z0 : Bool) (mem0 : Memory),
    let s := State.launch pc0 ac0 n0 z0 ri rem rdm mem0
    atBoundary s ∧ s.pc = pc0 ∧ s.ac = ac0 ∧ s.n = n0 ∧ s.z = z0 ∧ s.mem = mem0) ∧
  atBoundary State.reset ∧ State.reset.pc = 0x00#8 ∧ ∀ a, memRead State.reset.mem a = memDefault

/-- The invariant holds at reset (logs 7 to 10). -/
def Obligations.InvariantHoldsAtReset : Prop := State.reset.Inv

/-- HEADLINE: every step keeps the invariant (memory in canonical form; a running machine at t0, a halted one at t3),
from every state that meets it; and from every state at all, steps and times keep memory canonical. -/
def Obligations.EveryStepKeepsTheInvariant : Prop :=
  (∀ s t : State, s.Inv → step s = .next t → t.Inv) ∧
  ∀ (p : Policies) (s t : State), s.mem.wf = true → (stepWith p s = .next t ∨ tick s = t) → t.mem.wf = true

/-! ### The organisation -/

/-- R139 (derived): the equations of R133 and R134 reproduce Tabelas 10.3 and 10.4 in every column and at every time. -/
def Obligations.EquationsReproduceTheTimingTables : Prop :=
  ∀ (t : Time) (m : Mnemonic) (n z : Bool), controlUnit t (some m) n z = timingTable t m n z

/-- R129 with R115 to R125: the signals of Tabela 10.2 for the transfers of a time, with "goto t0" or "Halt" at the last
time, are the cell of the timing table. -/
def Obligations.TransfersNeedTheSignalsOfTheTables : Prop :=
  ∀ (t : Time) (m : Mnemonic) (n z : Bool),
    (transferSignals (transferSequence m n z t)).union (endSignals t m n z) = timingTable t m n z

/-- R128: the five operations of the UAL, the instruction that uses each, and exactly one of the five selects active
whenever AC is loaded, which is then loaded with the output for X = AC and Y = RDM; N and Z are formed from that
output. -/
def Obligations.UalHasFiveOperations : Prop :=
  (∀ x y : Byte, ual .y x y = y ∧ (ual .add x y).toNat = (x.toNat + y.toNat) % 256 ∧
    ∀ i, i < 8 → (ual .or x y).getLsbD i = (x.getLsbD i || y.getLsbD i) ∧
      (ual .and x y).getLsbD i = (x.getLsbD i && y.getLsbD i) ∧ (ual .not x y).getLsbD i = !x.getLsbD i) ∧
  (∀ (t : Time) (d : Option Mnemonic) (n z : Bool),
    let c := controlUnit t d n z
    (c.cargaAC = true → [c.ualY, c.ualADD, c.ualOR, c.ualAND, c.ualNOT].count true = 1) ∧
    (c.ualY = true → d = some .lda) ∧ (c.ualADD = true → d = some .add) ∧ (c.ualOR = true → d = some .or) ∧
    (c.ualAND = true → d = some .and) ∧ (c.ualNOT = true → d = some .not)) ∧
  ∀ (s : State) (op : UalOp), (signalsAt s).cargaAC = true → (signalsAt s).ualOp = some op →
    (tick s).ac = ual op s.ac s.rdm ∧ (tick s).n = flagN (ual op s.ac s.rdm) ∧ (tick s).z = flagZ (ual op s.ac s.rdm)

/-- R141: sel is 1 only in t5 of STA, LDA, ADD, OR and AND; REM is loaded only in t0 and t3, from PC, and in t5, from
RDM. -/
def Obligations.SelPassesRdmOnlyAtT5 : Prop :=
  (∀ (t : Time) (d : Option Mnemonic) (n z : Bool),
    let c := controlUnit t d n z
    (c.sel = true ↔ t = .t5 ∧ d ∈ [some .sta, some .lda, some .add, some .or, some .and]) ∧
    (c.cargaREM = true → (t = .t0 ∧ c.sel = false) ∨ (t = .t3 ∧ c.sel = false) ∨ (t = .t5 ∧ c.sel = true))) ∧
  ∀ s : State, (signalsAt s).cargaREM = true →
    (tick s).rem = if (signalsAt s).sel then s.rdm else s.pc

/-- No register is given two values in one time, and no time ends an instruction in two ways, so the order in which the
model looks at the signals does not matter (log 21). -/
def Obligations.NoTwoSourcesInOneTime : Prop :=
  ∀ (t : Time) (d : Option Mnemonic) (n z : Bool),
    let c := controlUnit t d n z
    ¬(c.cargaPC = true ∧ c.incrementaPC = true) ∧ ¬(c.read = true ∧ c.cargaRDM = true) ∧
    ¬(c.gotoT0 = true ∧ c.halt = true) ∧ ¬(c.read = true ∧ c.write = true)

/-- R130: after a time with "goto t0" the next time is t0, after one with "Halt" there is no next time, otherwise it is
the following one; "goto t0" acts together with the other signals of its time, as in t7 of LDA. What follows t7 without
either is left open (log 18) and not stated. -/
def Obligations.TimesFollowOneAnother : Prop :=
  ∀ s : State, s.run = .running →
    ((signalsAt s).gotoT0 = true → (tick s).time = .t0 ∧ (tick s).run = .running) ∧
    ((signalsAt s).halt = true → (tick s).run = .halted ∧ ∀ k, ticks k (tick s) = tick s) ∧
    ((signalsAt s).gotoT0 = false → (signalsAt s).halt = false →
      (tick s).run = .running ∧ (s.time ≠ .t7 → timeIndex (tick s).time = timeIndex s.time + 1)) ∧
    (s.time = .t7 → decoded s.ri = some .lda →
      signalsAt s = { ualY := true, cargaAC := true, cargaNZ := true, gotoT0 := true } ∧
      (tick s).ac = s.rdm ∧ (tick s).time = .t0)

/-- R112: the fetch phase is the same for all instructions and depends on none of RI, N and Z; after t2, RI = MEM[a],
PC = (a + 1) mod 256, REM = a, RDM = MEM[a]. -/
def Obligations.FetchPhaseTakesT0ToT2 : Prop :=
  (∀ (d : Option Mnemonic) (n z : Bool),
    controlUnit .t0 d n z = { sel := false, cargaREM := true } ∧
    controlUnit .t1 d n z = { read := true, incrementaPC := true } ∧
    controlUnit .t2 d n z = { cargaRI := true }) ∧
  ∀ s : State, atBoundary s →
    ticks 1 s = { s with rem := s.pc, time := .t1 } ∧
    ticks 2 s = { s with rem := s.pc, rdm := memRead s.mem s.pc, pc := s.pc + 1#8, time := .t2 } ∧
    ticks 3 s = { s with
    ri := memRead s.mem s.pc, pc := s.pc + 1#8, rem := s.pc, rdm := memRead s.mem s.pc, time := .t3 }

/-- R136 with R112 and R115 to R125: one time step under the equations is the transfers the instruction's sequence
lists for that time, all from the values at its beginning, up to the instruction's last time. -/
def Obligations.TimeStepPerformsTheSequence : Prop :=
  ∀ (s : State) (m : Mnemonic), s.run = .running →
    (decoded s.ri = some m ∨ timeIndex s.time < 3) →
    timeIndex s.time ≤ timeIndex (lastTime m s.n s.z) → tick s = sequenceStep m s

/-- R43: the memory accesses of each instruction, in order, and no others, for an undefined code the opcode byte's alone;
and the times at which they are made. That an undefined code then faults is D4 (log 3):
`UndefinedCodeFaultsAfterTheFetch`. -/
def Obligations.AccessesOfEachInstruction : Prop :=
  ∀ s : State, atBoundary s →
    (∀ m, decoded (opcodeAt s) = some m →
      (instrTrace s).accesses = accessTable m s.n s.z s.pc (operandAt s) s.ac) ∧
    (decoded (opcodeAt s) = none → (instrTrace s).accesses = [.read s.pc]) ∧
    ∀ (tm : Time) (d : Option Mnemonic) (n z : Bool),
      ((controlUnit tm d n z).read = true → tm = .t1 ∨ tm = .t4 ∨ tm = .t6) ∧
      ((controlUnit tm d n z).write = true → tm = .t7)

/-- R178: the number of times, the last time, the reads and the writes of each instruction; three times are the fetch. -/
def Obligations.TimesOfEachInstruction : Prop :=
  ∀ (s : State) (m : Mnemonic), atBoundary s → decoded (opcodeAt s) = some m →
    (instrTrace s).times = timesTable m s.n s.z ∧
    timesTable m s.n s.z = timeIndex (lastTime m s.n s.z) + 1 ∧
    (ticks 3 s).time = .t3 ∧
    ((instrTrace s).accesses.filter Access.isRead).length = readsTable m s.n s.z ∧
    ((instrTrace s).accesses.filter (fun a => !a.isRead)).length = writesTable m

/-- HEADLINE (R140, derived; with R138): the organisation refines the instructions. From every instruction boundary
whose code is defined, running the time steps of the equations to the end of the instruction gives exactly the state
the instruction's meaning gives, hidden registers included. -/
def Obligations.OrganisationRefinesTheInstructions : Prop :=
  ∀ s : State, atBoundary s → codeAt s ∉ undefinedCodes → step s = .next (instrTrace s).final

/-- HEADLINE: every run of instructions is a run of times (R140): whatever a number of steps from a boundary reaches,
at most eight times as many time steps reach it. -/
def Obligations.EveryRunIsARunOfTimes : Prop :=
  ∀ (k : Nat) (s t : State), atBoundary s → Sys2Proof.core.run k s = .next t → ∃ j, j ≤ 8 * k ∧ ticks j s = t

/-- A step from inside an instruction finishes the instruction (the model's own reading of a step there, log 17): after
any number of its times, one step gives what one step from the boundary gives. -/
def Obligations.StepFromInsideFinishesTheInstruction : Prop :=
  ∀ (s : State) (m : Mnemonic) (j : Nat), atBoundary s → decoded (opcodeAt s) = some m →
    j < timesTable m s.n s.z → step (ticks j s) = step s

/-- R137 (derived): an undefined code in the organisation. No signal is asserted from t3 on; eight times pass with
nothing but the fetch, and the time that follows is the free value (log 18), about which nothing is said. Under
UNDEF_OPCODE_POLICY = nop1 a step there is NOP's, which differs from that at most in the time. -/
def Obligations.UndefinedCodeInTheOrganisation : Prop :=
  (∀ (t : Time) (n z : Bool), 3 ≤ timeIndex t → controlUnit t none n z = {}) ∧
  ∀ s : State, atBoundary s → codeAt s ∈ undefinedCodes →
    (instrTrace s).times = 8 ∧
    (instrTrace s).final = { fetchPhase s with time := Config.timeAfterT7 } ∧
    stepWith ⟨.ignore, .nop1⟩ s = .next { (instrTrace s).final with time := .t0 }
end

