-- ==== Sys2Proof/Laws/Encode.lean ====
section
/-! SUPPORT. The words of the instructions, spelled out: the opcode byte of each (the list of 30_encoding.md R52) and
the bytes it encodes to. -/

namespace Sys2Proof

open Sys2Proof

@[simp] theorem opcodeByte_nop : Instr.opcodeByte .nop = 0x00#8 := by simp [Instr.opcodeByte, Instr.code]
@[simp] theorem opcodeByte_sta (e : Byte) : Instr.opcodeByte (.sta e) = 0x10#8 := by simp [Instr.opcodeByte, Instr.code]
@[simp] theorem opcodeByte_lda (e : Byte) : Instr.opcodeByte (.lda e) = 0x20#8 := by simp [Instr.opcodeByte, Instr.code]
@[simp] theorem opcodeByte_add (e : Byte) : Instr.opcodeByte (.add e) = 0x30#8 := by simp [Instr.opcodeByte, Instr.code]
@[simp] theorem opcodeByte_or (e : Byte) : Instr.opcodeByte (.or e) = 0x40#8 := by simp [Instr.opcodeByte, Instr.code]
@[simp] theorem opcodeByte_and (e : Byte) : Instr.opcodeByte (.and e) = 0x50#8 := by simp [Instr.opcodeByte, Instr.code]
@[simp] theorem opcodeByte_not : Instr.opcodeByte .not = 0x60#8 := by simp [Instr.opcodeByte, Instr.code]
@[simp] theorem opcodeByte_jmp (e : Byte) : Instr.opcodeByte (.jmp e) = 0x80#8 := by simp [Instr.opcodeByte, Instr.code]
@[simp] theorem opcodeByte_jn (e : Byte) : Instr.opcodeByte (.jn e) = 0x90#8 := by simp [Instr.opcodeByte, Instr.code]
@[simp] theorem opcodeByte_jz (e : Byte) : Instr.opcodeByte (.jz e) = 0xA0#8 := by simp [Instr.opcodeByte, Instr.code]
@[simp] theorem opcodeByte_hlt : Instr.opcodeByte .hlt = 0xF0#8 := by simp [Instr.opcodeByte, Instr.code]

@[simp] theorem encode_nop : encode .nop = [0x00#8] := by simp [encode, Instr.operand?]
@[simp] theorem encode_sta (e : Byte) : encode (.sta e) = [0x10#8, e] := by simp [encode, Instr.operand?]
@[simp] theorem encode_lda (e : Byte) : encode (.lda e) = [0x20#8, e] := by simp [encode, Instr.operand?]
@[simp] theorem encode_add (e : Byte) : encode (.add e) = [0x30#8, e] := by simp [encode, Instr.operand?]
@[simp] theorem encode_or (e : Byte) : encode (.or e) = [0x40#8, e] := by simp [encode, Instr.operand?]
@[simp] theorem encode_and (e : Byte) : encode (.and e) = [0x50#8, e] := by simp [encode, Instr.operand?]
@[simp] theorem encode_not : encode .not = [0x60#8] := by simp [encode, Instr.operand?]
@[simp] theorem encode_jmp (e : Byte) : encode (.jmp e) = [0x80#8, e] := by simp [encode, Instr.operand?]
@[simp] theorem encode_jn (e : Byte) : encode (.jn e) = [0x90#8, e] := by simp [encode, Instr.operand?]
@[simp] theorem encode_jz (e : Byte) : encode (.jz e) = [0xA0#8, e] := by simp [encode, Instr.operand?]
@[simp] theorem encode_hlt : encode .hlt = [0xF0#8] := by simp [encode, Instr.operand?]

end Sys2Proof
end

