-- ==== Sys2Proof/Laws/State.lean ====
section
/-! SUPPORT. One lemma per field per update of the state, true by rfl, so that no later proof unfolds a record
update. -/

namespace Sys2Proof.Machine

open Sys2Proof

@[simp] theorem incPC_ac (s : State) : (incPC s).ac = s.ac := rfl
@[simp] theorem incPC_pc (s : State) : (incPC s).pc = s.pc + 1#8 := rfl
@[simp] theorem incPC_n (s : State) : (incPC s).n = s.n := rfl
@[simp] theorem incPC_z (s : State) : (incPC s).z = s.z := rfl
@[simp] theorem incPC_ri (s : State) : (incPC s).ri = s.ri := rfl
@[simp] theorem incPC_rem (s : State) : (incPC s).rem = s.rem := rfl
@[simp] theorem incPC_rdm (s : State) : (incPC s).rdm = s.rdm := rfl
@[simp] theorem incPC_time (s : State) : (incPC s).time = s.time := rfl
@[simp] theorem incPC_run (s : State) : (incPC s).run = s.run := rfl
@[simp] theorem incPC_mem (s : State) : (incPC s).mem = s.mem := rfl

@[simp] theorem fetchPhase_ac (s : State) : (fetchPhase s).ac = s.ac := rfl
@[simp] theorem fetchPhase_pc (s : State) : (fetchPhase s).pc = s.pc + 1#8 := rfl
@[simp] theorem fetchPhase_n (s : State) : (fetchPhase s).n = s.n := rfl
@[simp] theorem fetchPhase_z (s : State) : (fetchPhase s).z = s.z := rfl
@[simp] theorem fetchPhase_ri (s : State) : (fetchPhase s).ri = memRead s.mem s.pc := rfl
@[simp] theorem fetchPhase_rem (s : State) : (fetchPhase s).rem = s.pc := rfl
@[simp] theorem fetchPhase_rdm (s : State) : (fetchPhase s).rdm = memRead s.mem s.pc := rfl
@[simp] theorem fetchPhase_time (s : State) : (fetchPhase s).time = .t3 := rfl
@[simp] theorem fetchPhase_run (s : State) : (fetchPhase s).run = s.run := rfl
@[simp] theorem fetchPhase_mem (s : State) : (fetchPhase s).mem = s.mem := rfl

@[simp] theorem gotoT0_ac (s : State) : (gotoT0 s).ac = s.ac := rfl
@[simp] theorem gotoT0_pc (s : State) : (gotoT0 s).pc = s.pc := rfl
@[simp] theorem gotoT0_n (s : State) : (gotoT0 s).n = s.n := rfl
@[simp] theorem gotoT0_z (s : State) : (gotoT0 s).z = s.z := rfl
@[simp] theorem gotoT0_ri (s : State) : (gotoT0 s).ri = s.ri := rfl
@[simp] theorem gotoT0_rem (s : State) : (gotoT0 s).rem = s.rem := rfl
@[simp] theorem gotoT0_rdm (s : State) : (gotoT0 s).rdm = s.rdm := rfl
@[simp] theorem gotoT0_time (s : State) : (gotoT0 s).time = .t0 := rfl
@[simp] theorem gotoT0_run (s : State) : (gotoT0 s).run = s.run := rfl
@[simp] theorem gotoT0_mem (s : State) : (gotoT0 s).mem = s.mem := rfl

@[simp] theorem halt_ac (s : State) : (halt s).ac = s.ac := rfl
@[simp] theorem halt_pc (s : State) : (halt s).pc = s.pc := rfl
@[simp] theorem halt_n (s : State) : (halt s).n = s.n := rfl
@[simp] theorem halt_z (s : State) : (halt s).z = s.z := rfl
@[simp] theorem halt_ri (s : State) : (halt s).ri = s.ri := rfl
@[simp] theorem halt_rem (s : State) : (halt s).rem = s.rem := rfl
@[simp] theorem halt_rdm (s : State) : (halt s).rdm = s.rdm := rfl
@[simp] theorem halt_time (s : State) : (halt s).time = s.time := rfl
@[simp] theorem halt_run (s : State) : (halt s).run = .halted := rfl
@[simp] theorem halt_mem (s : State) : (halt s).mem = s.mem := rfl

@[simp] theorem faulted_ac (r : FaultReason) (s : State) : (faulted r s).ac = s.ac := rfl
@[simp] theorem faulted_pc (r : FaultReason) (s : State) : (faulted r s).pc = s.pc := rfl
@[simp] theorem faulted_n (r : FaultReason) (s : State) : (faulted r s).n = s.n := rfl
@[simp] theorem faulted_z (r : FaultReason) (s : State) : (faulted r s).z = s.z := rfl
@[simp] theorem faulted_ri (r : FaultReason) (s : State) : (faulted r s).ri = s.ri := rfl
@[simp] theorem faulted_rem (r : FaultReason) (s : State) : (faulted r s).rem = s.rem := rfl
@[simp] theorem faulted_rdm (r : FaultReason) (s : State) : (faulted r s).rdm = s.rdm := rfl
@[simp] theorem faulted_time (r : FaultReason) (s : State) : (faulted r s).time = s.time := rfl
@[simp] theorem faulted_run (r : FaultReason) (s : State) : (faulted r s).run = .faulted r := rfl
@[simp] theorem faulted_mem (r : FaultReason) (s : State) : (faulted r s).mem = s.mem := rfl

@[simp] theorem readOperand_ac (e : Byte) (s : State) : (readOperand e s).ac = s.ac := rfl
@[simp] theorem readOperand_pc (e : Byte) (s : State) : (readOperand e s).pc = s.pc := rfl
@[simp] theorem readOperand_n (e : Byte) (s : State) : (readOperand e s).n = s.n := rfl
@[simp] theorem readOperand_z (e : Byte) (s : State) : (readOperand e s).z = s.z := rfl
@[simp] theorem readOperand_ri (e : Byte) (s : State) : (readOperand e s).ri = s.ri := rfl
@[simp] theorem readOperand_rem (e : Byte) (s : State) : (readOperand e s).rem = s.pc := rfl
@[simp] theorem readOperand_rdm (e : Byte) (s : State) : (readOperand e s).rdm = e := rfl
@[simp] theorem readOperand_time (e : Byte) (s : State) : (readOperand e s).time = s.time := rfl
@[simp] theorem readOperand_run (e : Byte) (s : State) : (readOperand e s).run = s.run := rfl
@[simp] theorem readOperand_mem (e : Byte) (s : State) : (readOperand e s).mem = s.mem := rfl

@[simp] theorem fetchOperand_ac (e : Byte) (s : State) : (fetchOperand e s).ac = s.ac := rfl
@[simp] theorem fetchOperand_pc (e : Byte) (s : State) : (fetchOperand e s).pc = s.pc + 1#8 := rfl
@[simp] theorem fetchOperand_n (e : Byte) (s : State) : (fetchOperand e s).n = s.n := rfl
@[simp] theorem fetchOperand_z (e : Byte) (s : State) : (fetchOperand e s).z = s.z := rfl
@[simp] theorem fetchOperand_ri (e : Byte) (s : State) : (fetchOperand e s).ri = s.ri := rfl
@[simp] theorem fetchOperand_rem (e : Byte) (s : State) : (fetchOperand e s).rem = s.pc := rfl
@[simp] theorem fetchOperand_rdm (e : Byte) (s : State) : (fetchOperand e s).rdm = e := rfl
@[simp] theorem fetchOperand_time (e : Byte) (s : State) : (fetchOperand e s).time = s.time := rfl
@[simp] theorem fetchOperand_run (e : Byte) (s : State) : (fetchOperand e s).run = s.run := rfl
@[simp] theorem fetchOperand_mem (e : Byte) (s : State) : (fetchOperand e s).mem = s.mem := rfl

@[simp] theorem readMem_ac (e : Byte) (s : State) : (readMem e s).ac = s.ac := rfl
@[simp] theorem readMem_pc (e : Byte) (s : State) : (readMem e s).pc = s.pc := rfl
@[simp] theorem readMem_n (e : Byte) (s : State) : (readMem e s).n = s.n := rfl
@[simp] theorem readMem_z (e : Byte) (s : State) : (readMem e s).z = s.z := rfl
@[simp] theorem readMem_ri (e : Byte) (s : State) : (readMem e s).ri = s.ri := rfl
@[simp] theorem readMem_rem (e : Byte) (s : State) : (readMem e s).rem = e := rfl
@[simp] theorem readMem_rdm (e : Byte) (s : State) : (readMem e s).rdm = memRead s.mem e := rfl
@[simp] theorem readMem_time (e : Byte) (s : State) : (readMem e s).time = s.time := rfl
@[simp] theorem readMem_run (e : Byte) (s : State) : (readMem e s).run = s.run := rfl
@[simp] theorem readMem_mem (e : Byte) (s : State) : (readMem e s).mem = s.mem := rfl

@[simp] theorem writeMem_ac (e : Byte) (s : State) : (writeMem e s).ac = s.ac := rfl
@[simp] theorem writeMem_pc (e : Byte) (s : State) : (writeMem e s).pc = s.pc := rfl
@[simp] theorem writeMem_n (e : Byte) (s : State) : (writeMem e s).n = s.n := rfl
@[simp] theorem writeMem_z (e : Byte) (s : State) : (writeMem e s).z = s.z := rfl
@[simp] theorem writeMem_ri (e : Byte) (s : State) : (writeMem e s).ri = s.ri := rfl
@[simp] theorem writeMem_rem (e : Byte) (s : State) : (writeMem e s).rem = e := rfl
@[simp] theorem writeMem_rdm (e : Byte) (s : State) : (writeMem e s).rdm = s.ac := rfl
@[simp] theorem writeMem_time (e : Byte) (s : State) : (writeMem e s).time = s.time := rfl
@[simp] theorem writeMem_run (e : Byte) (s : State) : (writeMem e s).run = s.run := rfl
@[simp] theorem writeMem_mem (e : Byte) (s : State) : (writeMem e s).mem = memWrite s.mem e s.ac := rfl

@[simp] theorem jumpTo_ac (e : Byte) (s : State) : (jumpTo e s).ac = s.ac := rfl
@[simp] theorem jumpTo_pc (e : Byte) (s : State) : (jumpTo e s).pc = e := rfl
@[simp] theorem jumpTo_n (e : Byte) (s : State) : (jumpTo e s).n = s.n := rfl
@[simp] theorem jumpTo_z (e : Byte) (s : State) : (jumpTo e s).z = s.z := rfl
@[simp] theorem jumpTo_ri (e : Byte) (s : State) : (jumpTo e s).ri = s.ri := rfl
@[simp] theorem jumpTo_rem (e : Byte) (s : State) : (jumpTo e s).rem = s.pc := rfl
@[simp] theorem jumpTo_rdm (e : Byte) (s : State) : (jumpTo e s).rdm = e := rfl
@[simp] theorem jumpTo_time (e : Byte) (s : State) : (jumpTo e s).time = s.time := rfl
@[simp] theorem jumpTo_run (e : Byte) (s : State) : (jumpTo e s).run = s.run := rfl
@[simp] theorem jumpTo_mem (e : Byte) (s : State) : (jumpTo e s).mem = s.mem := rfl

@[simp] theorem setNZ_ac (v : Byte) (s : State) : (setNZ v s).ac = s.ac := rfl
@[simp] theorem setNZ_pc (v : Byte) (s : State) : (setNZ v s).pc = s.pc := rfl
@[simp] theorem setNZ_n (v : Byte) (s : State) : (setNZ v s).n = flagN v := rfl
@[simp] theorem setNZ_z (v : Byte) (s : State) : (setNZ v s).z = flagZ v := rfl
@[simp] theorem setNZ_ri (v : Byte) (s : State) : (setNZ v s).ri = s.ri := rfl
@[simp] theorem setNZ_rem (v : Byte) (s : State) : (setNZ v s).rem = s.rem := rfl
@[simp] theorem setNZ_rdm (v : Byte) (s : State) : (setNZ v s).rdm = s.rdm := rfl
@[simp] theorem setNZ_time (v : Byte) (s : State) : (setNZ v s).time = s.time := rfl
@[simp] theorem setNZ_run (v : Byte) (s : State) : (setNZ v s).run = s.run := rfl
@[simp] theorem setNZ_mem (v : Byte) (s : State) : (setNZ v s).mem = s.mem := rfl

@[simp] theorem loadAC_ac (v : Byte) (s : State) : (loadAC v s).ac = v := rfl
@[simp] theorem loadAC_pc (v : Byte) (s : State) : (loadAC v s).pc = s.pc := rfl
@[simp] theorem loadAC_n (v : Byte) (s : State) : (loadAC v s).n = flagN v := rfl
@[simp] theorem loadAC_z (v : Byte) (s : State) : (loadAC v s).z = flagZ v := rfl
@[simp] theorem loadAC_ri (v : Byte) (s : State) : (loadAC v s).ri = s.ri := rfl
@[simp] theorem loadAC_rem (v : Byte) (s : State) : (loadAC v s).rem = s.rem := rfl
@[simp] theorem loadAC_rdm (v : Byte) (s : State) : (loadAC v s).rdm = s.rdm := rfl
@[simp] theorem loadAC_time (v : Byte) (s : State) : (loadAC v s).time = s.time := rfl
@[simp] theorem loadAC_run (v : Byte) (s : State) : (loadAC v s).run = s.run := rfl
@[simp] theorem loadAC_mem (v : Byte) (s : State) : (loadAC v s).mem = s.mem := rfl

@[simp] theorem loadUal_ac (op : UalOp) (s : State) : (loadUal op s).ac = ual op s.ac s.rdm := rfl
@[simp] theorem loadUal_pc (op : UalOp) (s : State) : (loadUal op s).pc = s.pc := rfl
@[simp] theorem loadUal_n (op : UalOp) (s : State) : (loadUal op s).n = flagN (ual op s.ac s.rdm) := rfl
@[simp] theorem loadUal_z (op : UalOp) (s : State) : (loadUal op s).z = flagZ (ual op s.ac s.rdm) := rfl
@[simp] theorem loadUal_ri (op : UalOp) (s : State) : (loadUal op s).ri = s.ri := rfl
@[simp] theorem loadUal_rem (op : UalOp) (s : State) : (loadUal op s).rem = s.rem := rfl
@[simp] theorem loadUal_rdm (op : UalOp) (s : State) : (loadUal op s).rdm = s.rdm := rfl
@[simp] theorem loadUal_time (op : UalOp) (s : State) : (loadUal op s).time = s.time := rfl
@[simp] theorem loadUal_run (op : UalOp) (s : State) : (loadUal op s).run = s.run := rfl
@[simp] theorem loadUal_mem (op : UalOp) (s : State) : (loadUal op s).mem = s.mem := rfl

end Sys2Proof.Machine
end

