-- ==== Sys2Proof/Laws/Exec.lean ====
section
/-! SUPPORT. Each meaning, unfolded once: exec answers a next state for every instruction, and this is it. -/

namespace Sys2Proof.Machine

open Sys2Proof

@[simp] theorem exec_nop (s : State) : exec .nop s = .next (gotoT0 (fetchPhase s)) := rfl
@[simp] theorem exec_sta (e : Byte) (s : State) :
    exec (.sta e) s = .next (gotoT0 (writeMem e (fetchOperand e (fetchPhase s)))) := rfl
@[simp] theorem exec_lda (e : Byte) (s : State) : exec (.lda e) s = .next (loadFromMem .y e s) := rfl
@[simp] theorem exec_add (e : Byte) (s : State) : exec (.add e) s = .next (loadFromMem .add e s) := rfl
@[simp] theorem exec_or (e : Byte) (s : State) : exec (.or e) s = .next (loadFromMem .or e s) := rfl
@[simp] theorem exec_and (e : Byte) (s : State) : exec (.and e) s = .next (loadFromMem .and e s) := rfl
@[simp] theorem exec_not (s : State) : exec .not s = .next (gotoT0 (loadUal .not (fetchPhase s))) := rfl
@[simp] theorem exec_jmp (e : Byte) (s : State) : exec (.jmp e) s = .next (gotoT0 (jumpTo e (fetchPhase s))) := rfl
@[simp] theorem exec_jn (e : Byte) (s : State) :
    exec (.jn e) s = .next (gotoT0 (jumpIf s.n e (fetchPhase s))) := rfl
@[simp] theorem exec_jz (e : Byte) (s : State) :
    exec (.jz e) s = .next (gotoT0 (jumpIf s.z e (fetchPhase s))) := rfl
@[simp] theorem exec_hlt (s : State) : exec .hlt s = .next (halt (fetchPhase s)) := rfl

@[simp] theorem jumpIf_true (e : Byte) (s : State) : jumpIf true e s = jumpTo e s := rfl
@[simp] theorem jumpIf_false (e : Byte) (s : State) : jumpIf false e s = incPC s := rfl

/-- How an instruction ends: at t0 with the run state as it was, or, for HLT, halted at t3. -/
theorem exec_end {i : Instr} {s t : State} (h : exec i s = .next t) :
    (t.time = .t0 ∧ t.run = s.run) ∨ (i = .hlt ∧ t.time = .t3 ∧ t.run = .halted) := by
  cases i with
  | hlt => simp at h; subst h; simp
  | jn e => simp at h; subst h; cases s.n <;> simp
  | jz e => simp at h; subst h; cases s.z <;> simp
  | _ => simp at h; subst h; simp [loadFromMem]

end Sys2Proof.Machine
end

