-- ==== Sys2Proof/Laws/Memory.lean ====
section
/-! SUPPORT. The laws of memory: reading after writing, on every memory, and that every operation keeps the canonical
form. -/

namespace Sys2Proof.Machine

open Sys2Proof

theorem memLookup_of_absent {m : Memory} {k : Nat} (h : ∀ c ∈ m, c.1 ≠ k) : memLookup m k = memDefault := by
  induction m with
  | nil => rfl
  | cons c rest ih =>
    obtain ⟨j, v⟩ := c
    have hj : j ≠ k := h (j, v) (by simp)
    simp only [memLookup, if_neg hj]
    exact ih fun c hc => h c (by simp [hc])

theorem memLookup_append_of_absent {l : Memory} (r : Memory) {k : Nat} (h : ∀ c ∈ l, c.1 ≠ k) :
    memLookup (l ++ r) k = memLookup r k := by
  induction l with
  | nil => rfl
  | cons c rest ih =>
    obtain ⟨j, v⟩ := c
    have hj : j ≠ k := h (j, v) (by simp)
    simp only [List.cons_append, memLookup, if_neg hj]
    exact ih fun c hc => h c (by simp [hc])

theorem memLookup_append_of_absent_right (l : Memory) {r : Memory} {k : Nat} (h : ∀ c ∈ r, c.1 ≠ k) :
    memLookup (l ++ r) k = memLookup l k := by
  induction l with
  | nil => simpa [memLookup] using memLookup_of_absent h
  | cons c rest ih =>
    obtain ⟨j, v⟩ := c
    by_cases hj : j = k <;> simp [memLookup, hj, ih]

/-- A filter that keeps every entry of a key does not change what the key reads. -/
theorem memLookup_filter (m : Memory) {k : Nat} {p : Nat → Bool} (hk : p k = true) :
    memLookup (m.filter fun c => p c.1) k = memLookup m k := by
  induction m with
  | nil => rfl
  | cons c rest ih =>
    obtain ⟨j, v⟩ := c
    by_cases hp : p j = true
    · simp [hp, memLookup, ih]
    · have hj : j ≠ k := fun h => hp (h ▸ hk)
      simp [hp, memLookup, ih, hj]

/-- 20_memory.md R33: a write followed by a read of the same position returns the value written. -/
theorem memRead_memWrite_same (m : Memory) (a v : Byte) : memRead (memWrite m a v) a = v := by
  unfold memRead memWrite
  rw [memLookup_append_of_absent_right _ (by simp; omega), memLookup_append_of_absent _ (by simp; omega)]
  split <;> simp_all [memLookup]

/-- 20_memory.md R32: a write leaves every other position unchanged. -/
theorem memRead_memWrite_other (m : Memory) {a a' : Byte} (v : Byte) (h : a' ≠ a) :
    memRead (memWrite m a v) a' = memRead m a' := by
  have hne : a.toNat ≠ a'.toNat := fun e => h (BitVec.eq_of_toNat_eq e.symm)
  have hmid : ∀ c ∈ (if v = memDefault then [] else [(a.toNat, v)] : Memory), c.1 ≠ a'.toNat := by
    intro c hc; split at hc <;> simp_all
  unfold memRead memWrite
  rcases Nat.lt_or_gt_of_ne hne with hlt | hgt
  · rw [List.append_assoc, memLookup_append_of_absent _ (by simp; omega), memLookup_append_of_absent _ hmid]
    exact memLookup_filter m (p := fun j => decide (a.toNat < j)) (by simpa using hlt)
  · rw [memLookup_append_of_absent_right _ (by simp; omega), memLookup_append_of_absent_right _ hmid]
    exact memLookup_filter m (p := fun j => decide (j < a.toNat)) (by simpa using hgt)

/-- The two cases of a read after a write, as one equation. -/
theorem memRead_memWrite (m : Memory) (a a' v : Byte) :
    memRead (memWrite m a v) a' = if a' = a then v else memRead m a' := by
  split
  · next h => rw [h, memRead_memWrite_same]
  · next h => exact memRead_memWrite_other m v h

theorem memory_sorted_iff (m : Memory) : m.sorted = true ↔ m.Pairwise (fun c d => c.1 < d.1) := by
  induction m with
  | nil => simp [Memory.sorted]
  | cons c rest ih =>
    cases rest with
    | nil => simp [Memory.sorted]
    | cons d rest =>
      simp only [Memory.sorted, Bool.and_eq_true, decide_eq_true_eq, ih, List.pairwise_cons (a := c)]
      refine ⟨fun ⟨h, hp⟩ => ⟨fun e he => ?_, hp⟩, fun ⟨h, hp⟩ => ⟨h d (by simp), hp⟩⟩
      rcases List.mem_cons.1 he with rfl | he
      · exact h
      · exact Nat.lt_trans h ((List.pairwise_cons.1 hp).1 e he)

/-- What the canonical form says, without the Bools. -/
theorem memory_wf_iff (m : Memory) :
    m.wf = true ↔ m.Pairwise (fun c d => c.1 < d.1) ∧ ∀ c ∈ m, c.1 < Config.memPositions ∧ c.2 ≠ memDefault := by
  simp [Memory.wf, memory_sorted_iff]

/-- Every write keeps the canonical form. -/
theorem memWrite_wf {m : Memory} (a v : Byte) (h : m.wf = true) : (memWrite m a v).wf = true := by
  rw [memory_wf_iff] at h ⊢
  obtain ⟨hs, hv⟩ := h
  have ha : a.toNat < Config.memPositions := a.isLt
  refine ⟨?_, ?_⟩
  · unfold memWrite
    rw [List.append_assoc, List.pairwise_append, List.pairwise_append]
    refine ⟨hs.filter _, ⟨?_, hs.filter _, ?_⟩, ?_⟩
    · split <;> simp
    · intro c hc d hd; split at hc <;> simp_all
    · intro c hc d hd
      simp only [List.mem_filter, decide_eq_true_eq, List.mem_append] at hc hd
      rcases hd with hd | hd
      · split at hd <;> simp_all
      · omega
  · intro c hc
    simp only [memWrite, List.mem_append, List.mem_filter] at hc
    rcases hc with (hc | hc) | hc
    · exact hv c hc.1
    · split at hc
      · simp at hc
      · next hne => simp only [List.mem_singleton] at hc; subst hc; exact ⟨ha, hne⟩
    · exact hv c hc.1

/-- Every load keeps the canonical form. -/
theorem loadBytes_wf {m : Memory} (a : Byte) (bytes : List Byte) (h : m.wf = true) :
    (loadBytes m a bytes).wf = true := by
  induction bytes generalizing m a with
  | nil => exact h
  | cons v rest ih => exact ih (a + 1#8) (memWrite_wf a v h)

theorem reset_memory_wf : State.reset.mem.wf = true := by decide

end Sys2Proof.Machine
end

