-- ==== Sys2Proof/Laws/PerInstr.lean ====
section
/-! SUPPORT. The laws made per instruction: every instruction is well-formed (20_memory.md R30), its encoding is one
well-formed word (30_encoding.md R50, R51, R53), and the word has the length of the instruction. -/

namespace Sys2Proof.Laws.EncodingForm

open Sys2Proof

/-- Well-formedness of an instruction and of its encoding. -/
def Statement (i : Instr) : Prop :=
  i.wellFormed = true ∧ wellFormedWord (encode i) = true ∧ (encode i).length = i.length

/-- The operand of a two-byte instruction is an address of the memory. -/
theorem operand_in_memory (e : Byte) : decide (e.toNat < Config.memPositions) = true := decide_eq_true e.isLt

theorem nop : Statement .nop := ⟨rfl, by rw [encode_nop]; rfl, by simp; rfl⟩
theorem sta (e : Byte) : Statement (.sta e) := ⟨operand_in_memory e, by rw [encode_sta]; rfl, by simp; rfl⟩
theorem lda (e : Byte) : Statement (.lda e) := ⟨operand_in_memory e, by rw [encode_lda]; rfl, by simp; rfl⟩
theorem add (e : Byte) : Statement (.add e) := ⟨operand_in_memory e, by rw [encode_add]; rfl, by simp; rfl⟩
theorem or (e : Byte) : Statement (.or e) := ⟨operand_in_memory e, by rw [encode_or]; rfl, by simp; rfl⟩
theorem and (e : Byte) : Statement (.and e) := ⟨operand_in_memory e, by rw [encode_and]; rfl, by simp; rfl⟩
theorem not : Statement .not := ⟨rfl, by rw [encode_not]; rfl, by simp; rfl⟩
theorem jmp (e : Byte) : Statement (.jmp e) := ⟨operand_in_memory e, by rw [encode_jmp]; rfl, by simp; rfl⟩
theorem jn (e : Byte) : Statement (.jn e) := ⟨operand_in_memory e, by rw [encode_jn]; rfl, by simp; rfl⟩
theorem jz (e : Byte) : Statement (.jz e) := ⟨operand_in_memory e, by rw [encode_jz]; rfl, by simp; rfl⟩
theorem hlt : Statement .hlt := ⟨rfl, by rw [encode_hlt]; rfl, by simp; rfl⟩

end Sys2Proof.Laws.EncodingForm
end

