-- ==== Sys2Proof/Laws/Run.lean ====
section
/-! SUPPORT. Runs of the host's machine, one step unfolded: what `run` of one step more does for each outcome. -/

namespace Sys2Proof.Machine

open Sys2Proof

theorem hostRun_of_next {M : Host.Core} {k : Nat} {s s' : M.State} (h : M.step s = .next s') :
    M.run (k + 1) s = M.run k s' := by
  unfold Host.Core.run
  rw [h]
  cases k <;> rfl

theorem hostRun_of_fault {M : Host.Core} {k : Nat} {s : M.State} {r : M.Fault} (h : M.step s = .fault r) :
    M.run (k + 1) s = .fault r := by
  unfold Host.Core.run
  rw [h]

theorem hostRun_of_refused {M : Host.Core} {k : Nat} {s : M.State} {r : M.Refusal} (h : M.step s = .refused r) :
    M.run (k + 1) s = .refused r := by
  unfold Host.Core.run
  rw [h]

/-- Two states with the same step have the same runs of one step or more. -/
theorem hostRun_congr {M : Host.Core} (k : Nat) {s s' : M.State} (h : M.step s = M.step s') :
    M.run (k + 1) s = M.run (k + 1) s' := by
  unfold Host.Core.run
  rw [h]

theorem coreRun_zero (s : State) : core.run 0 s = .next s := rfl

theorem coreRun_of_next {k : Nat} {s s' : State} (h : step s = .next s') : core.run (k + 1) s = core.run k s' :=
  hostRun_of_next (M := core) h

theorem coreRun_of_fault {k : Nat} {s : State} {r : Fault} (h : step s = .fault r) :
    core.run (k + 1) s = .fault r := hostRun_of_fault (M := core) h

theorem coreRun_of_refused {k : Nat} {s : State} {r : Refusal} (h : step s = .refused r) :
    core.run (k + 1) s = .refused r := hostRun_of_refused (M := core) h

end Sys2Proof.Machine
end

