-- ==== Sys2Proof/Laws/Step.lean ====
section
/-! SUPPORT. What a step and a time step can do, said once. -/

namespace Sys2Proof.Machine

open Sys2Proof

theorem stepWith_boundary {p : Policies} {s : State} (hr : s.run = .running) (ht : s.time = .t0) :
    stepWith p s = match fetchInstr p s with
      | .ok i => exec i s
      | .error r => rejectAtFetch r s := by
  unfold stepWith
  rw [hr]
  exact if_pos ht

theorem stepWith_inside {p : Policies} {s : State} (hr : s.run = .running) (ht : s.time ≠ .t0) :
    stepWith p s = resume p s := by
  simp [stepWith, hr, ht]

theorem stepWith_halted {p : Policies} {s : State} (hr : s.run = .halted) : stepWith p s = .next s := by
  simp [stepWith, hr, haltedStep]

theorem stepWith_faulted {p : Policies} {s : State} {r : FaultReason} (hr : s.run = .faulted r) :
    stepWith p s = faultOutcome r s := by
  simp [stepWith, hr, faultedStep]

theorem faultOutcome_ne_next (r : FaultReason) (s t : State) : faultOutcome r s ≠ .next t := by
  cases r <;> simp [faultOutcome]

/-- A step that answers a next state: the halted machine as it was, the instruction fetched at a boundary, or the rest
of the instruction in progress. -/
theorem stepWith_next_cases {p : Policies} {s t : State} (h : stepWith p s = .next t) :
    (s.run = .halted ∧ t = s) ∨
    (s.run = .running ∧ s.time = .t0 ∧ ∃ i, fetchInstr p s = .ok i ∧ exec i s = .next t) ∨
    (s.run = .running ∧ s.time ≠ .t0 ∧ ∃ m, decodeOpcode p (finishFetch s).ri = .ok m ∧
      t = (runTimes (8 - timeIndex (finishFetch s).time) (finishFetch s)).final) := by
  rcases hr : s.run with _ | _ | r
  · by_cases ht : s.time = .t0
    · rw [stepWith_boundary hr ht] at h
      refine .inr (.inl ⟨rfl, ht, ?_⟩)
      split at h
      · next i hi => exact ⟨i, hi, h⟩
      · next r hi => exact absurd h (faultOutcome_ne_next _ _ _)
    · rw [stepWith_inside hr ht] at h
      refine .inr (.inr ⟨rfl, ht, ?_⟩)
      simp only [resume] at h
      split at h
      · exact absurd h (faultOutcome_ne_next _ _ _)
      · next m hm => exact ⟨m, hm, by simpa using h.symm⟩
  · rw [stepWith_halted hr] at h
    exact .inl ⟨rfl, by simpa using h.symm⟩
  · rw [stepWith_faulted hr] at h
    exact absurd h (faultOutcome_ne_next _ _ _)

/-- A time step of a running machine is the datapath under the signals of its state. -/
theorem tick_running {s : State} (h : s.run = .running) : tick s = datapath (signalsAt s) s := by
  simp [tick, h]

theorem signalsAt_running {s : State} (h : s.run = .running) :
    signalsAt s = controlUnit s.time (decoded s.ri) s.n s.z := by
  simp [signalsAt, h]

/-- Out of `Running` no time step changes anything. -/
theorem tick_not_running {s : State} (h : s.run ≠ .running) : tick s = s := by
  unfold tick
  split <;> simp_all

/-- A time step changes memory only by the one write it may make, so it keeps the canonical form. -/
theorem tick_mem_wf {s : State} (h : s.mem.wf = true) : (tick s).mem.wf = true := by
  unfold tick
  split
  · simp only [datapath]
    split
    · exact memWrite_wf _ _ h
    · exact h
  · exact h
  · exact h

end Sys2Proof.Machine
end

