-- ==== Sys2Proof/Tests/Slice0.lean ====
section
/-! SUPPORT. The model's own tests. The expected results are those of the spec's vectors (95_test_vectors.md, each named
by its id) or are written out from the encoding tables (30_encoding.md R51, R55). The last section shows, for every
statement with hypotheses, a state and operands that meet them. -/

namespace Sys2Proof.Tests

open Sys2Proof Sys2Proof.Machine

/-- The launch state of a vector: PC, AC, N, Z, EE in the hidden registers (95_test_vectors.md, 2.12), and bytes placed
at addresses, all other positions 00. -/
def start (pc ac : Byte) (n z : Bool) (bytes : List (Byte × Byte)) : State :=
  State.launch pc ac n z 0xEE#8 0xEE#8 0xEE#8 (bytes.foldl (fun m c => memWrite m c.1 c.2) [])

/-- The state of an outcome that answers one. -/
def nextOf : Host.Outcome State Fault Refusal → Option State
  | .next s => some s
  | .fault _ => none
  | .refused _ => none

/-- The fault of an outcome that answers one. -/
def faultOf : Host.Outcome State Fault Refusal → Option Fault
  | .next _ => none
  | .fault f => some f
  | .refused _ => none

/-- What a vector lists of the state after one step: AC, PC, N and Z. -/
def after (s : State) : Option (Byte × Byte × Bool × Bool) :=
  (nextOf (step s)).map fun t => (t.ac, t.pc, t.n, t.z)

/-- A position after one step. -/
def memAfter (s : State) (a : Byte) : Option Byte := (nextOf (step s)).map fun t => memRead t.mem a

/-- The instruction a decoding gives, with the bytes left. -/
def decoding (bytes : List Byte) : Option (Instr × List Byte) :=
  match decode bytes with
  | .ok r => some r
  | .error _ => none

/-- Why a decoding fails. -/
def decodingError (bytes : List Byte) : Option DecodeError :=
  match decode bytes with
  | .ok _ => none
  | .error e => some e

/-! ### Decoding: words written out from the encoding (V-DEC-1 to V-DEC-17) -/

theorem test_decode_nop : decoding [0b00000000#8, 0x99#8] = some (.nop, [0x99#8]) := by decide
theorem test_decode_sta : decoding [0b00010000#8, 0x80#8] = some (.sta 0x80#8, []) := by decide
theorem test_decode_lda : decoding [0b00100000#8, 0x80#8] = some (.lda 0x80#8, []) := by decide
theorem test_decode_add : decoding [0b00110000#8, 0x80#8] = some (.add 0x80#8, []) := by decide
theorem test_decode_or : decoding [0b01000000#8, 0x80#8] = some (.or 0x80#8, []) := by decide
theorem test_decode_and : decoding [0b01010000#8, 0x80#8] = some (.and 0x80#8, []) := by decide
theorem test_decode_not : decoding [0b01100000#8, 0x99#8] = some (.not, [0x99#8]) := by decide
theorem test_decode_jmp : decoding [0b10000000#8, 0x80#8] = some (.jmp 0x80#8, []) := by decide
theorem test_decode_jn : decoding [0b10010000#8, 0x80#8] = some (.jn 0x80#8, []) := by decide
theorem test_decode_jz : decoding [0b10100000#8, 0x80#8] = some (.jz 0x80#8, []) := by decide
theorem test_decode_hlt : decoding [0b11110000#8] = some (.hlt, []) := by decide

/-- V-DEC-12, V-DEC-13, V-DEC-14: the low half is ignored. -/
theorem test_decode_low_half :
    decoding [0x2F#8, 0x80#8] = some (.lda 0x80#8, []) ∧ decoding [0x01#8] = some (.nop, []) ∧
    decoding [0xFF#8] = some (.hlt, []) := by decide

/-- V-DEC-15, V-DEC-16, V-DEC-17: the undefined codes, by name. -/
theorem test_decode_undefined : ∀ b ∈ [0x70#8, 0xB0#8, 0xC0#8, 0xD0#8, 0xE0#8, 0x7F#8],
    decodingError [b, 0x80#8] = some (.rejected (.illegalOpcode b)) := by decide

theorem test_decode_short :
    decodingError [] = some .noBytes ∧ decodingError [0x20#8] = some (.missingOperand .lda) := by decide

set_option maxRecDepth 4000 in
/-- 95_test_vectors.md, 2.1: 176 of the 256 opcode bytes decode, 11 of them with a zero low half. -/
theorem test_decode_counts :
    ((List.range 256).filter fun b => (decoding [BitVec.ofNat 8 b, 0#8]).isSome).length = 176 ∧
    ((List.range 256).filter fun b => wellFormedWord [BitVec.ofNat 8 b] || wellFormedWord [BitVec.ofNat 8 b, 0#8]).length
      = 11 := by decide

theorem test_encode_words :
    encode .nop = [0x00#8] ∧ encode (.sta 0x81#8) = [0x10#8, 0x81#8] ∧ encode (.jz 0xFF#8) = [0xA0#8, 0xFF#8] ∧
    encode .hlt = [0xF0#8] := by decide

/-- Bit 0 of a table word is the least significant bit of the first byte; the bits above `nbits` are 0. -/
theorem test_decode_table_word :
    decodeTableWord 8 0x20 = some (.lda 0x00#8) ∧ decodeTableWord 16 0x8020 = some (.lda 0x80#8) ∧
    decodeTableWord 8 0x9960 = some .not ∧ decodeTableWord 8 0x70 = none := by decide

/-! ### Well-formedness: an ill-formed term for each check -/

theorem test_wellFormed_instr : (Instr.lda 0xFF#8).wellFormed = true ∧ Instr.hlt.wellFormed = true := by decide
theorem test_wellFormed_word : wellFormedWord [0x20#8, 0xFF#8] = true ∧ wellFormedWord [0xF0#8] = true := by decide
theorem test_illFormed_empty : wellFormedWord [] = false := by decide
theorem test_illFormed_undefined_code : wellFormedWord [0x70#8] = false ∧ wellFormedWord [0xE0#8, 0x00#8] = false := by
  decide
theorem test_illFormed_missing_operand : wellFormedWord [0x20#8] = false := by decide
theorem test_illFormed_too_long : wellFormedWord [0x00#8, 0x00#8] = false := by decide
theorem test_illFormed_low_half : wellFormedWord [0x21#8, 0x80#8] = false := by decide
theorem test_illFormed_memory :
    Memory.wf [(2, 0x01#8), (1, 0x01#8)] = false ∧ Memory.wf [(1, 0x01#8), (1, 0x02#8)] = false ∧
    Memory.wf [(1, 0x00#8)] = false ∧ Memory.wf [(256, 0x01#8)] = false := by decide

/-! ### The instructions, one step each -/

/-- V-LDA-4. -/
theorem test_lda_negative :
    after (start 0x10#8 0x00#8 false true [(0x10#8, 0x20#8), (0x11#8, 0x80#8), (0x80#8, 0x80#8)])
      = some (0x80#8, 0x12#8, true, false) := by decide

/-- V-WRAP-2: the operand byte of an instruction at FF is at 00. -/
theorem test_lda_wraps :
    after (start 0xFF#8 0x00#8 false true [(0xFF#8, 0x20#8), (0x00#8, 0xF0#8), (0xF0#8, 0x5A#8)])
      = some (0x5A#8, 0x01#8, false, false) := by decide

/-- V-STA-2: the flags are not written, even when they do not describe AC; the stored 00 leaves memory canonical. -/
theorem test_sta_keeps_flags :
    let s := start 0x10#8 0x00#8 true false [(0x10#8, 0x10#8), (0x11#8, 0x80#8), (0x80#8, 0xEE#8)]
    after s = some (0x00#8, 0x12#8, true, false) ∧ memAfter s 0x80#8 = some 0x00#8 ∧
    (nextOf (step s)).map (fun t => t.mem) = some [(0x10, 0x10#8), (0x11, 0x80#8)] := by decide

/-- V-STA-4: a store into its own operand byte goes to 11, not to 99. -/
theorem test_sta_own_operand :
    let s := start 0x10#8 0x99#8 true false [(0x10#8, 0x10#8), (0x11#8, 0x11#8)]
    memAfter s 0x11#8 = some 0x99#8 ∧ memAfter s 0x99#8 = some 0x00#8 := by decide

/-- V-ADD-3. -/
theorem test_add_overflow :
    after (start 0x10#8 0x7F#8 false false [(0x10#8, 0x30#8), (0x11#8, 0x80#8), (0x80#8, 0x01#8)])
      = some (0x80#8, 0x12#8, true, false) := by decide

/-- V-ADD-11. -/
theorem test_add_wraps :
    after (start 0x10#8 0xFF#8 true false [(0x10#8, 0x30#8), (0x11#8, 0x80#8), (0x80#8, 0x01#8)])
      = some (0x00#8, 0x12#8, false, true) := by decide

/-- V-OR-2. -/
theorem test_or_disjoint :
    after (start 0x10#8 0x55#8 false false [(0x10#8, 0x40#8), (0x11#8, 0x80#8), (0x80#8, 0x2A#8)])
      = some (0x7F#8, 0x12#8, false, false) := by decide

/-- V-OR-4: stale flags are rewritten although AC keeps its value. -/
theorem test_or_zero_tests_ac :
    after (start 0x10#8 0x37#8 true true [(0x10#8, 0x40#8), (0x11#8, 0x80#8)])
      = some (0x37#8, 0x12#8, false, false) := by decide

/-- V-AND-2. -/
theorem test_and_disjoint :
    after (start 0x10#8 0xF0#8 true false [(0x10#8, 0x50#8), (0x11#8, 0x80#8), (0x80#8, 0x0F#8)])
      = some (0x00#8, 0x12#8, false, true) := by decide

/-- V-AND-7. -/
theorem test_and_bitwise :
    after (start 0x10#8 0xAA#8 true false [(0x10#8, 0x50#8), (0x11#8, 0x80#8), (0x80#8, 0xCC#8)])
      = some (0x88#8, 0x12#8, true, false) := by decide

/-- V-NOT-2. -/
theorem test_not_all_ones :
    after (start 0x10#8 0xFF#8 true false [(0x10#8, 0x60#8), (0x11#8, 0x99#8)])
      = some (0x00#8, 0x11#8, false, true) := by decide

/-- V-NOT-5: the complement, not the negation. -/
theorem test_not_is_no_negation :
    after (start 0x10#8 0x03#8 false false [(0x10#8, 0x60#8), (0x11#8, 0x99#8)])
      = some (0xFC#8, 0x11#8, true, false) := by decide

/-- V-JMP-5. -/
theorem test_jmp_to_top :
    after (start 0x10#8 0x12#8 false false [(0x10#8, 0x80#8), (0x11#8, 0xFF#8)])
      = some (0x12#8, 0xFF#8, false, false) := by decide

/-- V-JN-4 and V-JN-5: the flip-flop N decides, not bit 7 of AC. -/
theorem test_jn_reads_the_flag :
    after (start 0x10#8 0x05#8 true false [(0x10#8, 0x90#8), (0x11#8, 0x40#8)])
      = some (0x05#8, 0x40#8, true, false) ∧
    after (start 0x10#8 0x80#8 false false [(0x10#8, 0x90#8), (0x11#8, 0x40#8)])
      = some (0x80#8, 0x12#8, false, false) := by decide

/-- V-JZ-4 and V-JZ-5: the flip-flop Z decides, not AC. -/
theorem test_jz_reads_the_flag :
    after (start 0x10#8 0x33#8 false true [(0x10#8, 0xA0#8), (0x11#8, 0x40#8)])
      = some (0x33#8, 0x40#8, false, true) ∧
    after (start 0x10#8 0x00#8 false false [(0x10#8, 0xA0#8), (0x11#8, 0x40#8)])
      = some (0x00#8, 0x12#8, false, false) := by decide

/-- V-NOP-1 and V-WRAP-1. -/
theorem test_nop :
    after (start 0x10#8 0xAB#8 true false [(0x11#8, 0x99#8)]) = some (0xAB#8, 0x11#8, true, false) ∧
    after (start 0xFF#8 0x01#8 false false []) = some (0x01#8, 0x00#8, false, false) := by decide

/-- V-HLT-1. -/
theorem test_hlt :
    let s := start 0x10#8 0xAB#8 true false [(0x10#8, 0xF0#8), (0x11#8, 0x99#8)]
    after s = some (0xAB#8, 0x11#8, true, false) ∧ (nextOf (step s)).map (fun t => t.run) = some .halted := by decide

/-- V-UND-1. -/
theorem test_undefined_code :
    let s := start 0x10#8 0x12#8 false false [(0x10#8, 0x70#8), (0x11#8, 0x80#8)]
    faultOf (step s) = some (.illegalOpcode 0x10#8 0x70#8
      { s with pc := 0x11#8, ri := 0x70#8, rem := 0x10#8, rdm := 0x70#8, time := .t3
               run := .faulted (.illegalOpcode 0x10#8 0x70#8) }) := by decide

/-- 95_test_vectors.md, 2.11, the alternatives: under `refuse` V-NOP-2 faults; under `nop1` V-UND-1 is a one-byte
no-operation. -/
theorem test_alternative_policies :
    (faultOf (stepWith ⟨.refuse, .fault⟩ (start 0x10#8 0xAB#8 true false [(0x10#8, 0x0F#8)]))).isSome = true ∧
    (nextOf (stepWith ⟨.ignore, .nop1⟩ (start 0x10#8 0x12#8 false false [(0x10#8, 0x70#8)]))).map (fun t => t.pc)
      = some 0x11#8 := by decide

/-! ### The organisation, time by time (95_test_vectors.md, 2.12) -/

/-- T-LDA: the registers at the end of t1, t4, t5 and t6 (AC, PC, RI, REM, RDM). -/
theorem test_trace_lda :
    let s := start 0x00#8 0x55#8 false true [(0x00#8, 0x20#8), (0x01#8, 0x80#8), (0x80#8, 0xC8#8)]
    let row := fun k => let t := ticks k s; (t.ac, t.pc, t.ri, t.rem, t.rdm)
    row 2 = (0x55#8, 0x01#8, 0xEE#8, 0x00#8, 0x20#8) ∧ row 5 = (0x55#8, 0x02#8, 0x20#8, 0x01#8, 0x80#8) ∧
    row 6 = (0x55#8, 0x02#8, 0x20#8, 0x80#8, 0x80#8) ∧ row 7 = (0x55#8, 0x02#8, 0x20#8, 0x80#8, 0xC8#8) := by decide

/-- V-STA-7: the accesses and the number of times, the value stored already being there. -/
theorem test_accesses_sta :
    let t := instrTrace (start 0x10#8 0x2C#8 false false [(0x10#8, 0x10#8), (0x11#8, 0x80#8), (0x80#8, 0x2C#8)])
    t.accesses = [.read 0x10#8, .read 0x11#8, .write 0x80#8 0x2C#8] ∧ t.times = 8 := by decide

/-- V-JN-2: an untaken JN makes one access in four times. -/
theorem test_accesses_jn_untaken :
    let t := instrTrace (start 0x10#8 0x05#8 false false [(0x10#8, 0x90#8), (0x11#8, 0x40#8)])
    t.accesses = [.read 0x10#8] ∧ t.times = 4 := by decide

/-! ### Running a word of the opcode table from reset -/

theorem test_fetch_word :
    (nextOf (step (State.reset.withFetchWord 16 0x4080))).map (fun t => t.pc) = some 0x40#8 ∧
    (nextOf (step (State.reset.withFetchWord 8 0x60))).map (fun t => t.ac) = some 0xFF#8 ∧
    (nextOf (step (State.reset.withFetchWord 8 0xF0))).map (fun t => t.run) = some .halted := by decide

/-! ### For every statement with hypotheses, a state and operands that meet them -/

/-- One state per code: the code in the high half of the byte at PC = 10, the operand byte 80. -/
def coded (c : BitVec 4) (ac : Byte) (n z : Bool) : State :=
  start 0x10#8 ac n z [(0x10#8, c ++ 0#4), (0x11#8, 0x80#8), (0x80#8, 0x01#8)]

/-- LowHalfOfTheOpcodeByteIsIgnored and AlternativeDecodingPolicies. -/
theorem test_witness_codes :
    mnemonicOf 0b0010#4 = some .lda ∧ 0b0111#4 ∈ undefinedCodes ∧ (0x0#4 = 0#4) ∧ (0xF#4 ≠ 0#4) := by decide

/-- DecodeOfEncodeIsTheInstruction. -/
theorem test_witness_wellFormed :
    (Instr.sta 0xFF#8).wellFormed = true ∧ ∀ i ∈ [Instr.sta 0xFF#8, .hlt, .jn 0x00#8], i.wellFormed = true := by decide

/-- EncodeOfDecodeIsTheWord: a word with a non-zero low half, and a well-formed one. -/
theorem test_witness_decodes :
    decode [0x2F#8, 0x80#8, 0x77#8] = .ok (.lda 0x80#8, [0x77#8]) ∧ wellFormedWord [0x20#8, 0x80#8] = true := by
  exact ⟨rfl, by decide⟩

/-- EachCodeSelectsItsInstruction: a boundary at which each code stands at PC. -/
theorem test_witness_boundary_of_each_code :
    ∀ c ∈ [0b0000#4, 0b0001#4, 0b0010#4, 0b0011#4, 0b0100#4, 0b0101#4, 0b0110#4, 0b1000#4, 0b1001#4, 0b1010#4, 0b1111#4],
      atBoundary (coded c 0x05#8 true false) ∧ codeAt (coded c 0x05#8 true false) = c := by decide

/-- The eleven statements of the instructions: the opcode byte at that boundary decodes to each. -/
theorem test_witness_decoded_opcode_of_each :
    let b := fun c => opcodeAt (coded c 0x05#8 true false)
    decodeOpcode policies (b 0b0000#4) = .ok .nop ∧ decodeOpcode policies (b 0b0001#4) = .ok .sta ∧
    decodeOpcode policies (b 0b0010#4) = .ok .lda ∧ decodeOpcode policies (b 0b0011#4) = .ok .add ∧
    decodeOpcode policies (b 0b0100#4) = .ok .or ∧ decodeOpcode policies (b 0b0101#4) = .ok .and ∧
    decodeOpcode policies (b 0b0110#4) = .ok .not ∧ decodeOpcode policies (b 0b1000#4) = .ok .jmp ∧
    decodeOpcode policies (b 0b1001#4) = .ok .jn ∧ decodeOpcode policies (b 0b1010#4) = .ok .jz ∧
    decodeOpcode policies (b 0b1111#4) = .ok .hlt :=
  ⟨rfl, rfl, rfl, rfl, rfl, rfl, rfl, rfl, rfl, rfl, rfl⟩

/-- JnJumpsIfNegative, JzJumpsIfZero: both values of the flag, at the same code. -/
theorem test_witness_flag_values :
    (coded 0b1001#4 0x05#8 true false).n = true ∧ (coded 0b1001#4 0x05#8 false false).n = false ∧
    (coded 0b1010#4 0x05#8 false true).z = true ∧ (coded 0b1010#4 0x05#8 false false).z = false := by decide

/-- AddIsTheSignedSumOrOffBy256: each clause at the values where the clauses meet; the operand at 80 is 1 or -1. -/
theorem test_witness_signed_sums :
    let sum := fun (ac m : Byte) => ac.toInt + (memRead (start 0x10#8 ac false false [(0x80#8, m)]).mem 0x80#8).toInt
    sum 0x7E#8 0x01#8 = 127 ∧ sum 0x7F#8 0x01#8 = 128 ∧ sum 0x81#8 0xFF#8 = -128 ∧ sum 0x80#8 0xFF#8 = -129 := by decide

/-- NotThenAddOneNegates. -/
theorem test_witness_negation :
    memRead (coded 0b0110#4 0x80#8 true false).mem 0x80#8 = 0x01#8 ∧ (coded 0b0110#4 0x80#8 true false).ac = 0x80#8 ∧
    memRead (coded 0b0110#4 0x7F#8 false false).mem 0x80#8 = 0x01#8 ∧ (coded 0b0110#4 0x7F#8 false false).ac ≠ 0x80#8 := by
  decide

/-- FlagsAreWrittenExactlyWithAc: an instruction outside the five, one inside with two pairs of flags, and a time that
does not load AC. -/
theorem test_witness_flag_writers :
    (∃ t, exec (.sta 0x80#8) (coded 0b0001#4 0x05#8 true true) = .next t) ∧
    (Instr.sta 0x80#8).code ∉ [0b0010#4, 0b0011#4, 0b0100#4, 0b0101#4, 0b0110#4] ∧
    (∃ t t', exec (.lda 0x80#8) (coded 0b0010#4 0x05#8 true true) = .next t ∧
      exec (.lda 0x80#8) { coded 0b0010#4 0x05#8 true true with n := false, z := false } = .next t') ∧
    (Instr.lda 0x80#8).code ∈ [0b0010#4, 0b0011#4, 0b0100#4, 0b0101#4, 0b0110#4] ∧
    (signalsAt (coded 0b0010#4 0x05#8 true true)).cargaAC = false :=
  ⟨⟨_, rfl⟩, by decide, ⟨_, _, rfl, rfl⟩, by decide, by decide⟩

/-- FlagsDescribeTheLoadedValue. -/
theorem test_witness_loads :
    ∀ i ∈ [Instr.lda 0x80#8, .add 0x80#8, .or 0x80#8, .and 0x80#8, .not],
      i.code ∈ [0b0010#4, 0b0011#4, 0b0100#4, 0b0101#4, 0b0110#4] := by decide

/-- FlagsAgreementIsKeptByEveryStep, by a step and by a time. -/
theorem test_witness_flags_agree :
    flagsAgree (coded 0b0011#4 0xFF#8 true false) ∧
    (∃ t, stepWith policies (coded 0b0011#4 0xFF#8 true false) = .next t) ∧
    ∃ t, tick (coded 0b0011#4 0xFF#8 true false) = t :=
  ⟨by decide, ⟨_, rfl⟩, ⟨_, rfl⟩⟩

/-- OnlyConditionalJumpsReadTheFlags: JN with Z changed and N kept, JZ with N changed and Z kept, LDA with both. -/
theorem test_witness_flag_readers :
    ((Instr.jn 0x40#8).code = 0b1001#4 → true = (coded 0b1001#4 0x05#8 true false).n) ∧
    ((Instr.jn 0x40#8).code = 0b1010#4 → true = (coded 0b1001#4 0x05#8 true false).z) ∧
    ((Instr.jz 0x40#8).code = 0b1001#4 → true = (coded 0b1010#4 0x05#8 false false).n) ∧
    ((Instr.jz 0x40#8).code = 0b1010#4 → false = (coded 0b1010#4 0x05#8 false false).z) ∧
    ((Instr.lda 0x40#8).code = 0b1001#4 → true = (coded 0b0010#4 0x05#8 false false).n) ∧
    ((Instr.lda 0x40#8).code = 0b1010#4 → true = (coded 0b0010#4 0x05#8 false false).z) := by decide

/-- PcAtTheNextBoundary and StoresAreSeenByTheNextFetch, the store going to the next instruction (V-STA-5: its opcode
byte becomes HLT). -/
theorem test_witness_fetched_sta :
    let s := start 0x10#8 0xF0#8 true false [(0x10#8, 0x10#8), (0x11#8, 0x12#8)]
    atBoundary s ∧ fetchInstr policies s = .ok (.sta 0x12#8) ∧
    ∃ t, step s = .next t ∧ decode [opcodeAt t, operandAt t] = .ok (.hlt, [0x00#8]) :=
  ⟨by decide, rfl, _, rfl, rfl⟩

/-- StoresAreSeenByTheNextFetch, its last clause: the store makes the operand byte of a two-byte instruction. -/
theorem test_witness_store_before_two_bytes :
    let s := start 0x10#8 0x77#8 false false [(0x10#8, 0x10#8), (0x11#8, 0x13#8), (0x12#8, 0x20#8)]
    atBoundary s ∧ fetchInstr policies s = .ok (.sta 0x13#8) ∧
    ∃ t, step s = .next t ∧ decode [opcodeAt t, operandAt t] = .ok (.lda 0x77#8, []) :=
  ⟨by decide, rfl, _, rfl, rfl⟩

/-- PcWrapsAtTheTop. -/
theorem test_witness_top : (start 0xFF#8 0x00#8 false true []).pc = 0xFF#8 ∧
    (start 0xFF#8 0x00#8 false true []).n = false := by decide

/-- OnlyStaWritesMemory: a store, an instruction that is none, and times 0, 5, 6 and 7 of STA. -/
theorem test_witness_memory_writers :
    let s := coded 0b0001#4 0x2C#8 false false
    (∃ t, exec (.sta 0x80#8) s = .next t) ∧ (∃ t, exec (.lda 0x80#8) s = .next t) ∧
    (Instr.lda 0x80#8).code ≠ 0b0001#4 ∧
    (s.run = .running ∧ (signalsAt s).write = false) ∧
    ((ticks 5 s).run = .running ∧ (signalsAt (ticks 5 s)).cargaREM = true ∧ (signalsAt (ticks 5 s)).sel = true) ∧
    ((ticks 6 s).run = .running ∧ (signalsAt (ticks 6 s)).cargaRDM = true) ∧
    ((ticks 7 s).run = .running ∧ (signalsAt (ticks 7 s)).write = true) :=
  ⟨⟨_, rfl⟩, ⟨_, rfl⟩, by decide, by decide, by decide, by decide, by decide⟩

/-- FrameOfSta, FrameOfTheAccumulatorLoads, FrameOfTheOthers. -/
theorem test_witness_frames :
    (∃ t, exec (.sta 0x80#8) (coded 0b0001#4 0x05#8 true true) = .next t) ∧
    ((Instr.add 0x80#8).code ∈ [0b0010#4, 0b0011#4, 0b0100#4, 0b0101#4, 0b0110#4] ∧
      ∃ t, exec (.add 0x80#8) (coded 0b0011#4 0x05#8 true true) = .next t) ∧
    ((Instr.jz 0x80#8).code ∈ [0b0000#4, 0b1000#4, 0b1001#4, 0b1010#4, 0b1111#4] ∧
      (Instr.jz 0x80#8).code ≠ 0b1111#4 ∧ ∃ t, exec (.jz 0x80#8) (coded 0b1010#4 0x05#8 true true) = .next t) :=
  ⟨⟨_, rfl⟩, ⟨by decide, _, rfl⟩, ⟨by decide, by decide, _, rfl⟩⟩

/-- CanonicalMemoriesThatReadTheSameAreEqual: two memories written in another order. -/
theorem test_witness_canonical :
    let m := memWrite (memWrite [] 0x80#8 0x01#8) 0x10#8 0x02#8
    let m' := memWrite (memWrite [] 0x10#8 0x02#8) 0x80#8 0x01#8
    m.wf = true ∧ m'.wf = true ∧ ∀ a : Byte, memRead m a = memRead m' a :=
  ⟨by decide, by decide, fun _ => rfl⟩

/-- StepRunsTheInstructionAtPc, for a two-byte and a one-byte instruction. -/
theorem test_witness_decoded_at_pc :
    let s := coded 0b0011#4 0x05#8 false false
    let u := coded 0b0110#4 0x05#8 false false
    (atBoundary s ∧ decode [opcodeAt s, operandAt s] = .ok (.add 0x80#8, [])) ∧
    (atBoundary u ∧ decode [opcodeAt u, operandAt u] = .ok (.not, [0x80#8])) :=
  ⟨⟨by decide, rfl⟩, by decide, rfl⟩

/-- UndefinedCodeFaultsAfterTheFetch, UndefinedCodeInTheOrganisation, EveryDefinedCodeCompletes and
OrganisationRefinesTheInstructions: an undefined and a defined code at PC. -/
theorem test_witness_defined_and_undefined :
    (∀ c ∈ undefinedCodes, atBoundary (coded c 0x05#8 false false) ∧ codeAt (coded c 0x05#8 false false) ∈ undefinedCodes) ∧
    (atBoundary (coded 0b1111#4 0x05#8 false false) ∧ codeAt (coded 0b1111#4 0x05#8 false false) ∉ undefinedCodes) ∧
    3 ≤ timeIndex .t3 := by decide

/-- FaultedStateIsNeverLeft. -/
theorem test_witness_faulted :
    (faulted (.illegalOpcode 0x10#8 0x70#8) State.reset).run = .faulted (.illegalOpcode 0x10#8 0x70#8) ∧
    (faulted (.nonZeroLowNibble 0x10#8 0x2F#8) State.reset).run = .faulted (.nonZeroLowNibble 0x10#8 0x2F#8) := by decide

/-- RefusePolicyFaultsNonZeroLowHalf: the three clauses. -/
theorem test_witness_refuse_policy :
    let s := fun b => start 0x10#8 0x05#8 false false [(0x10#8, b)]
    (atBoundary (s 0x2F#8) ∧ codeAt (s 0x2F#8) ∉ undefinedCodes ∧ (opcodeAt (s 0x2F#8)).extractLsb' 0 4 ≠ 0#4) ∧
    (atBoundary (s 0x7F#8) ∧ codeAt (s 0x7F#8) ∈ undefinedCodes) ∧
    (atBoundary (s 0x20#8) ∧ (opcodeAt (s 0x20#8)).extractLsb' 0 4 = 0#4) := by decide

/-- OnlyHltHaltsAndHaltedIsFinal. -/
theorem test_witness_halted :
    (halt State.reset).run = .halted ∧ (∃ t, exec .not State.reset = .next t) ∧ Instr.not ≠ .hlt :=
  ⟨rfl, ⟨_, rfl⟩, by decide⟩

/-- RunsIgnoreTheHiddenRegisters: the hidden registers differ. -/
theorem test_witness_same_visible :
    let s := State.launch 0x00#8 0x05#8 false false 0x11#8 0x22#8 0x33#8 []
    let s' := State.launch 0x00#8 0x05#8 false false 0xAA#8 0xBB#8 0xCC#8 []
    atBoundary s ∧ sameVisible s s' ∧ 0 < 3 ∧ s ≠ s' := by decide

/-- EveryStepKeepsTheInvariant: at a boundary, and the second clause also inside an instruction. -/
theorem test_witness_invariant :
    let s := coded 0b0001#4 0x05#8 false false
    (s.Inv ∧ ∃ t, step s = .next t) ∧
    ((ticks 5 s).mem.wf = true ∧ (∃ t, stepWith policies (ticks 5 s) = .next t) ∧ ∃ t, tick (ticks 5 s) = t) :=
  ⟨⟨by decide, _, rfl⟩, by decide, ⟨_, rfl⟩, _, rfl⟩

/-- UalHasFiveOperations and SelPassesRdmOnlyAtT5: times that load AC and REM, from each source. -/
theorem test_witness_signals :
    let s := coded 0b0011#4 0x05#8 false false
    (controlUnit .t7 (some .add) false false).cargaAC = true ∧
    ((signalsAt (ticks 7 s)).cargaAC = true ∧ (signalsAt (ticks 7 s)).ualOp = some .add) ∧
    (signalsAt s).cargaREM = true ∧ (signalsAt s).sel = false ∧
    (signalsAt (ticks 5 s)).cargaREM = true ∧ (signalsAt (ticks 5 s)).sel = true := by decide

/-- UalHasFiveOperations: every operation of the UAL is selected by some time, with AC loaded. -/
theorem test_witness_ual_selects :
    (controlUnit .t7 (some .lda) false false).ualY = true ∧ (controlUnit .t7 (some .add) false false).ualADD = true ∧
    (controlUnit .t7 (some .or) false false).ualOR = true ∧ (controlUnit .t7 (some .and) false false).ualAND = true ∧
    (controlUnit .t3 (some .not) false false).ualNOT = true := by decide

/-- TimesFollowOneAnother: t3 of NOP gives "goto t0", t3 of HLT "Halt", t0 neither; and t7 of LDA. -/
theorem test_witness_times :
    let s := coded 0b0000#4 0x05#8 false false
    let u := coded 0b1111#4 0x05#8 false false
    ((ticks 3 s).run = .running ∧ (signalsAt (ticks 3 s)).gotoT0 = true) ∧
    ((ticks 3 u).run = .running ∧ (signalsAt (ticks 3 u)).halt = true) ∧
    (s.run = .running ∧ (signalsAt s).gotoT0 = false ∧ (signalsAt s).halt = false ∧ s.time ≠ .t7) ∧
    let l := ticks 7 (coded 0b0010#4 0x05#8 false false)
    (l.run = .running ∧ l.time = .t7 ∧ decoded l.ri = some .lda) := by decide

/-- TimeStepPerformsTheSequence: the first time, RI stale, and the last time of STA. -/
theorem test_witness_sequence :
    let s := coded 0b0001#4 0x05#8 false false
    (s.run = .running ∧ timeIndex s.time < 3 ∧ timeIndex s.time ≤ timeIndex (lastTime .sta s.n s.z)) ∧
    ((ticks 7 s).run = .running ∧ decoded (ticks 7 s).ri = some .sta ∧
      timeIndex (ticks 7 s).time ≤ timeIndex (lastTime .sta (ticks 7 s).n (ticks 7 s).z)) := by decide

/-- AccessesOfEachInstruction: times that read and a time that writes. -/
theorem test_witness_access_times :
    (controlUnit .t1 none false false).read = true ∧ (controlUnit .t6 (some .lda) false false).read = true ∧
    (controlUnit .t7 (some .sta) false false).write = true := by decide

/-- AccessesOfEachInstruction, TimesOfEachInstruction, StepFromInsideFinishesTheInstruction (the last time of STA is
number 7) and FetchPhaseTakesT0ToT2. -/
theorem test_witness_decoded_boundary :
    let s := coded 0b0001#4 0x05#8 false false
    let u := coded 0b0111#4 0x05#8 false false
    (atBoundary s ∧ decoded (opcodeAt s) = some .sta ∧ 7 < timesTable .sta s.n s.z) ∧
    (atBoundary u ∧ decoded (opcodeAt u) = none) := by decide

/-- EveryRunIsARunOfTimes: LDA and then the NOP after it. -/
theorem test_witness_run :
    atBoundary (coded 0b0010#4 0x05#8 false false) ∧
    ∃ t, Sys2Proof.core.run 2 (coded 0b0010#4 0x05#8 false false) = .next t :=
  ⟨by decide, _, rfl⟩

end Sys2Proof.Tests
end

/-! ## The state's operations: what is left unchanged, and PC

Frame rules beside those of `Laws/State` that speak of the whole of a conditional jump, of a load of AC from memory, and
of the flags a load overwrites. -/

namespace Sys2Proof.Machine

open Sys2Proof

@[simp] theorem jumpIf_ac (c : Bool) (e : Byte) (s : State) : (jumpIf c e s).ac = s.ac := by cases c <;> rfl
@[simp] theorem jumpIf_n (c : Bool) (e : Byte) (s : State) : (jumpIf c e s).n = s.n := by cases c <;> rfl
@[simp] theorem jumpIf_z (c : Bool) (e : Byte) (s : State) : (jumpIf c e s).z = s.z := by cases c <;> rfl
@[simp] theorem jumpIf_pc (c : Bool) (e : Byte) (s : State) :
    (jumpIf c e s).pc = if c then e else s.pc + 1#8 := by cases c <;> rfl

/-- The two bytes of an instruction are counted one by one (10_state.md R14). -/
@[simp] theorem byte_succ_succ (a : Byte) : a + 1#8 + 1#8 = a + 2#8 := by rw [BitVec.add_assoc]; rfl

@[simp] theorem loadFromMem_pc (op : UalOp) (e : Byte) (s : State) :
    (loadFromMem op e s).pc = s.pc + 2#8 := by simp [loadFromMem]

/-- A load of AC from memory overwrites both flags without reading them. -/
@[simp] theorem loadFromMem_with_flags (op : UalOp) (e : Byte) (s : State) (n z : Bool) :
    loadFromMem op e { s with n := n, z := z } = loadFromMem op e s := rfl

/-- A load of AC from the UAL overwrites both flags without reading them. -/
@[simp] theorem loadUal_fetchPhase_with_flags (op : UalOp) (s : State) (n z : Bool) :
    loadUal op (fetchPhase { s with n := n, z := z }) = loadUal op (fetchPhase s) := rfl

end Sys2Proof.Machine

/-! ## The instruction fetched at a boundary -/

namespace Sys2Proof.Machine

open Sys2Proof

theorem instr_operand {m : Mnemonic} {e e' : Byte} (h : (m.instr e).operand? = some e') : e' = e := by
  cases m <;> simp [Mnemonic.instr, Instr.operand?] at h <;> exact h.symm

/-- The operand of the instruction fetched is the byte after its opcode byte (30_encoding.md R54, 20_memory.md R34). -/
theorem fetchInstr_operand {p : Policies} {s : State} {i : Instr} {e : Byte} (h : fetchInstr p s = .ok i)
    (he : i.operand? = some e) : e = memRead s.mem (s.pc + 1#8) := by
  unfold fetchInstr at h
  split at h
  · cases h
  · next m _ =>
    obtain rfl := Except.ok.inj h
    exact instr_operand he

/-- A step from a boundary executes the instruction fetched there. -/
theorem stepWith_of_fetchInstr {p : Policies} {s : State} {i : Instr} (hb : atBoundary s)
    (h : fetchInstr p s = .ok i) : stepWith p s = exec i s := by
  rw [stepWith_boundary hb.1 hb.2, h]

end Sys2Proof.Machine

/-! ## The fetch phase, time by time (45_control_sequences.md R112) -/

namespace Sys2Proof.Machine

open Sys2Proof

theorem controlUnit_t0 (d : Option Mnemonic) (n z : Bool) : controlUnit .t0 d n z = { cargaREM := true } := by
  simp [controlUnit]

theorem controlUnit_t1 (d : Option Mnemonic) (n z : Bool) :
    controlUnit .t1 d n z = { read := true, incrementaPC := true } := by simp [controlUnit]

theorem controlUnit_t2 (d : Option Mnemonic) (n z : Bool) : controlUnit .t2 d n z = { cargaRI := true } := by
  simp [controlUnit]

theorem tick_t0 {s : State} (hr : s.run = .running) (ht : s.time = .t0) :
    tick s = { s with rem := s.pc, time := .t1 } := by
  rw [tick_running hr, signalsAt_running hr, ht, controlUnit_t0]
  simp [datapath, nextTime, followingTime, ht]

theorem tick_t1 {s : State} (hr : s.run = .running) (ht : s.time = .t1) :
    tick s = { s with rdm := memRead s.mem s.rem, pc := s.pc + 1#8, time := .t2 } := by
  rw [tick_running hr, signalsAt_running hr, ht, controlUnit_t1]
  simp [datapath, nextTime, followingTime, ht]

theorem tick_t2 {s : State} (hr : s.run = .running) (ht : s.time = .t2) :
    tick s = { s with ri := s.rdm, time := .t3 } := by
  rw [tick_running hr, signalsAt_running hr, ht, controlUnit_t2]
  simp [datapath, nextTime, followingTime, ht]

/-- The first three times of every instruction are the fetch phase. -/
theorem ticks_three_of_boundary {s : State} (hb : atBoundary s) : ticks 3 s = fetchPhase s := by
  obtain ⟨hr, ht⟩ := hb
  simp [ticks, tick_t0, tick_t1, tick_t2, hr, ht, fetchPhase]

end Sys2Proof.Machine

/-! ## N and Z are written with AC (10_state.md R16) -/

namespace Sys2Proof.Machine

open Sys2Proof

/-- An instruction whose code is not one of the five that load AC keeps AC and the flags. -/
theorem exec_keeps_ac_flags {i : Instr} {s t : State} (h : exec i s = .next t)
    (hc : i.code ∉ [0b0010#4, 0b0011#4, 0b0100#4, 0b0101#4, 0b0110#4]) :
    t.ac = s.ac ∧ t.n = s.n ∧ t.z = s.z := by
  cases i with
  | lda | add | or | and | not => simp [Instr.code] at hc
  | nop | sta | jmp | jn | jz | hlt => simp at h; subst h; simp

/-- The five instructions that load AC do not read the flags, so the flags they leave are their own. -/
theorem exec_with_flags {i : Instr} (hc : i.code ∈ [0b0010#4, 0b0011#4, 0b0100#4, 0b0101#4, 0b0110#4]) (s : State)
    (n z : Bool) : exec i { s with n := n, z := z } = exec i s := by
  cases i with
  | lda | add | or | and | not => simp
  | nop | sta | jmp | jn | jz | hlt => simp [Instr.code] at hc

/-- The equations of carga NZ and carga AC are one (45_control_sequences.md R133). -/
theorem controlUnit_cargaNZ (t : Time) (d : Option Mnemonic) (n z : Bool) :
    (controlUnit t d n z).cargaNZ = (controlUnit t d n z).cargaAC := rfl

theorem datapath_keeps_ac_flags {c : Signals} (s : State) (hac : c.cargaAC = false) (hnz : c.cargaNZ = false) :
    (datapath c s).ac = s.ac ∧ (datapath c s).n = s.n ∧ (datapath c s).z = s.z := by
  simp [datapath, hac, hnz]

/-- A time that does not load AC keeps AC and the flags. -/
theorem tick_keeps_ac_flags {s : State} (h : (signalsAt s).cargaAC = false) :
    (tick s).ac = s.ac ∧ (tick s).n = s.n ∧ (tick s).z = s.z := by
  by_cases hr : s.run = .running
  · have hnz : (signalsAt s).cargaNZ = false := by
      rw [signalsAt_running hr] at h ⊢
      rwa [controlUnit_cargaNZ]
    rw [tick_running hr]
    exact datapath_keeps_ac_flags s h hnz
  · rw [tick_not_running hr]
    exact ⟨rfl, rfl, rfl⟩

/-- Settles O22: the frame of the six instructions that do not load AC, the five that do without reading the flags,
and the one equation behind carga AC and carga NZ. -/
theorem flagsAreWrittenExactlyWithAc : Obligations.FlagsAreWrittenExactlyWithAc := by
  unfold Obligations.FlagsAreWrittenExactlyWithAc
  refine ⟨fun _ _ _ => exec_keeps_ac_flags, fun i hc s t s' t' h h' => ?_, controlUnit_cargaNZ,
    fun _ => tick_keeps_ac_flags⟩
  rw [exec_with_flags hc, h] at h'
  exact (Host.Outcome.next.inj h').symm

end Sys2Proof.Machine

/-! ## PC at the next boundary (10_state.md R13) -/

namespace Sys2Proof.Machine

open Sys2Proof

/-- Settles O26: three times are the fetch phase; the step executes the instruction fetched, a jump to the operand byte
read at `a + 1`. -/
theorem pcAtTheNextBoundary : Obligations.PcAtTheNextBoundary := by
  unfold Obligations.PcAtTheNextBoundary
  intro s i hb hi
  refine ⟨by rw [ticks_three_of_boundary hb, fetchPhase_pc], ?_⟩
  rw [step, stepWith_of_fetchInstr hb hi]
  cases i with
  | nop | not | hlt => exact ⟨_, rfl, rfl⟩
  | sta | lda | add | or | and => exact ⟨_, rfl, by simp⟩
  | jmp e => exact ⟨_, rfl, fetchInstr_operand hi rfl⟩
  | jn e | jz e =>
    obtain rfl := fetchInstr_operand hi rfl
    exact ⟨_, rfl, by simp⟩

end Sys2Proof.Machine

/-! ## The control unit, decoded and undecoded (45_control_sequences.md R133 to R139) -/

namespace Sys2Proof.Machine

open Sys2Proof

/-- The equations for a decoded instruction are its column of the timing tables. -/
theorem controlUnit_some (t : Time) (m : Mnemonic) (n z : Bool) :
    controlUnit t (some m) n z = timingTable t m n z := by
  cases m with
  | jn => cases n <;> cases t <;> rfl
  | jz => cases z <;> cases t <;> rfl
  | _ => cases t <;> rfl

/-- After the fetch phase an undefined code asserts no signal. -/
theorem controlUnit_none {t : Time} (ht : t ∉ [.t0, .t1, .t2]) (n z : Bool) : controlUnit t none n z = {} := by
  cases t with
  | t0 | t1 | t2 => simp at ht
  | t3 | t4 | t5 | t6 | t7 => rfl

theorem controlUnit_write_iff (t : Time) (d : Option Mnemonic) (n z : Bool) :
    (controlUnit t d n z).write = true ↔ t = .t7 ∧ d = some .sta := by simp [controlUnit]

theorem controlUnit_cargaRDM_iff (t : Time) (d : Option Mnemonic) (n z : Bool) :
    (controlUnit t d n z).cargaRDM = true ↔ t = .t6 ∧ d = some .sta := by simp [controlUnit]

theorem time_of_controlUnit_read {t : Time} {d : Option Mnemonic} {n z : Bool}
    (h : (controlUnit t d n z).read = true) : t = .t1 ∨ t = .t4 ∨ t = .t6 := by
  cases t with
  | t1 | t4 | t6 => simp
  | t0 | t2 | t3 | t5 | t7 => simp [controlUnit] at h

/-- RDM has one source in each time: Read is inactive where carga RDM is active. -/
theorem controlUnit_read_of_cargaRDM {t : Time} {d : Option Mnemonic} {n z : Bool}
    (h : (controlUnit t d n z).cargaRDM = true) : (controlUnit t d n z).read = false := by
  obtain ⟨rfl, rfl⟩ := (controlUnit_cargaRDM_iff t d n z).1 h
  rw [controlUnit_some]
  rfl

theorem signalsAt_of_decoded {s : State} {m : Mnemonic} (hr : s.run = .running) (hm : decoded s.ri = some m) :
    signalsAt s = timingTable s.time m s.n s.z := by
  rw [signalsAt_running hr, hm, controlUnit_some]

end Sys2Proof.Machine

/-! ## Only STA writes memory (20_memory.md R32, 45_control_sequences.md R111) -/

namespace Sys2Proof.Machine

open Sys2Proof

@[simp] theorem jumpIf_mem (c : Bool) (e : Byte) (s : State) : (jumpIf c e s).mem = s.mem := by cases c <;> rfl

@[simp] theorem loadFromMem_mem (op : UalOp) (e : Byte) (s : State) : (loadFromMem op e s).mem = s.mem := rfl

theorem exec_keeps_mem {i : Instr} {s t : State} (h : exec i s = .next t) (hc : i.code ≠ 0b0001#4) :
    t.mem = s.mem := by
  cases i with
  | sta e => exact absurd rfl hc
  | _ => simp at h; subst h; simp

theorem exec_sta_stores {s t : State} {e : Byte} (h : exec (.sta e) s = .next t) :
    memRead t.mem e = s.ac ∧ (∀ a, a ≠ e → memRead t.mem a = memRead s.mem a) ∧ t.rem = e ∧ t.rdm = s.ac := by
  obtain rfl := Host.Outcome.next.inj h
  exact ⟨memRead_memWrite_same _ _ _, fun _ => memRead_memWrite_other _ _, rfl, rfl⟩

theorem tick_mem_of_no_write {s : State} (hr : s.run = .running) (h : (signalsAt s).write = false) :
    (tick s).mem = s.mem := by simp [tick_running hr, datapath, h]

theorem tick_mem_of_write {s : State} (hr : s.run = .running) (h : (signalsAt s).write = true) :
    (tick s).mem = memWrite s.mem s.rem s.rdm := by simp [tick_running hr, datapath, h]

theorem tick_rem_of_sel {s : State} (hr : s.run = .running) (h : (signalsAt s).cargaREM = true)
    (hsel : (signalsAt s).sel = true) : (tick s).rem = s.rdm := by simp [tick_running hr, datapath, h, hsel]

theorem tick_rdm_of_cargaRDM {s : State} (hr : s.run = .running) (h : (signalsAt s).cargaRDM = true) :
    (tick s).rdm = s.ac := by
  have hread : (signalsAt s).read = false := by
    rw [signalsAt_running hr] at h ⊢
    exact controlUnit_read_of_cargaRDM h
  simp [tick_running hr, datapath, h, hread]

/-- Settles O28: the store of STA and the frame of the other ten at the level of instructions, the equations of Write and
carga RDM with STA's column of the timing table, and what one time step does under each signal. -/
theorem onlyStaWritesMemory : Obligations.OnlyStaWritesMemory := by
  unfold Obligations.OnlyStaWritesMemory
  refine ⟨fun _ _ _ => exec_sta_stores, fun _ _ _ h hc a => by rw [exec_keeps_mem h hc],
    fun tm d n z => ⟨controlUnit_write_iff tm d n z, controlUnit_cargaRDM_iff tm d n z⟩,
    fun n z => ⟨controlUnit_some .t5 .sta n z, controlUnit_some .t6 .sta n z, controlUnit_some .t7 .sta n z⟩,
    fun s hr => ⟨tick_mem_of_no_write hr, tick_rem_of_sel hr, tick_rdm_of_cargaRDM hr, fun h a => ?_⟩⟩
  rw [tick_mem_of_write hr h, memRead_memWrite]

end Sys2Proof.Machine

/-! ## An instruction run time by time

The trace of the fetch phase, then one lemma for each shape of execution phase (45_control_sequences.md R115 to R125),
from any running state at t3; PC is there the address of the operand byte. -/

namespace Sys2Proof.Machine

open Sys2Proof

theorem runTimes_zero (s : State) : runTimes 0 s = { final := s, times := 0, accesses := [] } := rfl

/-- A time without "goto t0" and "Halt" is followed by the rest of its instruction. -/
theorem runTimes_of_going_on {s : State} {c : Signals} (k : Nat) (hr : s.run = .running) (hc : signalsAt s = c)
    (hg : c.gotoT0 = false) (hh : c.halt = false) :
    runTimes (k + 1) s =
      { final := (runTimes k (datapath c s)).final
        times := (runTimes k (datapath c s)).times + 1
        accesses := accessesOf c s ++ (runTimes k (datapath c s)).accesses } := by
  simp [runTimes, tick_running, hr, hc, hg, hh]

/-- A time with "goto t0" or "Halt" is the last of its instruction. -/
theorem runTimes_of_end {s : State} {c : Signals} (k : Nat) (hr : s.run = .running) (hc : signalsAt s = c)
    (he : (c.gotoT0 || c.halt) = true) :
    runTimes (k + 1) s = { final := datapath c s, times := 1, accesses := accessesOf c s } := by
  simp [runTimes, tick_running, hr, hc, he]

/-- The fetch phase is three times with one access, the read of the opcode byte. -/
theorem runTimes_of_boundary {s : State} (k : Nat) (hb : atBoundary s) :
    runTimes (k + 3) s =
      { final := (runTimes k (fetchPhase s)).final
        times := (runTimes k (fetchPhase s)).times + 3
        accesses := .read s.pc :: (runTimes k (fetchPhase s)).accesses } := by
  rw [← ticks_three_of_boundary hb]
  obtain ⟨hr, ht⟩ := hb
  simp [runTimes, ticks, tick_t0, tick_t1, tick_t2, signalsAt_running, controlUnit_t0, controlUnit_t1, controlUnit_t2,
    accessesOf, hr, ht]

/-- STA: the operand byte is read at t4, AC written to the position it names at t7. -/
theorem runTimes_of_sta {s : State} (k : Nat) (hr : s.run = .running) (ht : s.time = .t3)
    (hm : decoded s.ri = some .sta) :
    runTimes (k + 5) s =
      { final := gotoT0 (writeMem (memRead s.mem s.pc) (fetchOperand (memRead s.mem s.pc) s))
        times := 5
        accesses := [.read s.pc, .write (memRead s.mem s.pc) s.ac] } := by
  simp [runTimes, tick_running, signalsAt_of_decoded, hr, ht, hm, timingTable, accessesOf, datapath, nextTime,
    followingTime, gotoT0, writeMem, fetchOperand, readOperand, incPC]

/-- LDA, ADD, OR and AND, which differ in the operation of the UAL: the operand byte is read at t4, the position it
names at t6. -/
theorem runTimes_of_load {s : State} {m : Mnemonic} {op : UalOp} (k : Nat) (hr : s.run = .running)
    (ht : s.time = .t3) (hm : decoded s.ri = some m)
    (hop : (m, op) ∈ [(.lda, .y), (.add, .add), (.or, .or), (.and, .and)]) :
    runTimes (k + 5) s =
      { final := gotoT0 (loadUal op (readMem (memRead s.mem s.pc) (fetchOperand (memRead s.mem s.pc) s)))
        times := 5
        accesses := [.read s.pc, .read (memRead s.mem s.pc)] } := by
  simp only [List.mem_cons, Prod.mk.injEq, List.not_mem_nil, or_false] at hop
  obtain ⟨rfl, rfl⟩ | ⟨rfl, rfl⟩ | ⟨rfl, rfl⟩ | ⟨rfl, rfl⟩ := hop <;>
    simp [runTimes, tick_running, signalsAt_of_decoded, hr, ht, hm, timingTable, accessesOf, datapath, nextTime,
      followingTime, gotoT0, loadUal, loadAC, setNZ, ualOutput, Signals.ualOp, readMem, fetchOperand, readOperand,
      incPC]

/-- The three jumps follow the column of JN for the value `cond` of their condition: taken, the operand byte is read at
t4; untaken, it is skipped at t3 without being read (45_control_sequences.md R114). -/
theorem runTimes_of_jumpIf {s : State} {cond : Bool} (k : Nat) (hr : s.run = .running) (ht : s.time = .t3)
    (hc : ∀ t, controlUnit t (decoded s.ri) s.n s.z = timingTable t .jn cond s.z) :
    runTimes (k + 3) s =
      { final := gotoT0 (jumpIf cond (memRead s.mem s.pc) s)
        times := if cond then 3 else 1
        accesses := if cond then [.read s.pc] else [] } := by
  cases cond with
  | true =>
    simp [runTimes, tick_running, signalsAt_running, hr, ht, hc, timingTable, accessesOf, datapath, nextTime,
      followingTime, gotoT0, jumpTo, readOperand]
  | false => exact runTimes_of_end (k + 2) hr (by rw [signalsAt_running hr, ht, hc]) rfl

theorem timingTable_jmp (t : Time) (n z : Bool) : timingTable t .jmp n z = timingTable t .jn true z := by
  cases t <;> rfl

theorem timingTable_jz (t : Time) (n z : Bool) : timingTable t .jz n z = timingTable t .jn z z := by
  cases t <;> rfl

/-- One time of an undefined code after the fetch phase: no access, and nothing changes but the time. -/
theorem runTimes_succ_of_undefined {s : State} (k : Nat) (hr : s.run = .running) (hd : decoded s.ri = none)
    (ht : s.time ∉ [.t0, .t1, .t2]) :
    runTimes (k + 1) s =
      { final := (runTimes k { s with time := followingTime s.time }).final
        times := (runTimes k { s with time := followingTime s.time }).times + 1
        accesses := (runTimes k { s with time := followingTime s.time }).accesses } := by
  have hc : signalsAt s = {} := by rw [signalsAt_running hr, hd, controlUnit_none ht]
  rw [runTimes_of_going_on k hr hc rfl rfl]
  rfl

theorem runTimes_of_undefined {s : State} (hr : s.run = .running) (hd : decoded s.ri = none) (ht : s.time = .t3) :
    runTimes 5 s = { final := { s with time := Config.timeAfterT7 }, times := 5, accesses := [] } := by
  simp [runTimes_succ_of_undefined, runTimes_zero, hr, hd, ht, followingTime]

/-- What the organisation does from a boundary with a defined code: it reaches the state the instruction's meaning
gives, in the tabulated number of times and with the tabulated accesses. -/
theorem instrTrace_of_decoded {s : State} {m : Mnemonic} (hb : atBoundary s) (hm : decoded (opcodeAt s) = some m) :
    exec (m.instr (operandAt s)) s = .next (instrTrace s).final ∧
    (instrTrace s).times = timesTable m s.n s.z ∧
    (instrTrace s).accesses = accessTable m s.n s.z s.pc (operandAt s) s.ac := by
  have hr : (fetchPhase s).run = .running := hb.1
  have ht : (fetchPhase s).time = .t3 := rfl
  have hri : decoded (fetchPhase s).ri = some m := hm
  rw [instrTrace, runTimes_of_boundary 5 hb]
  cases m with
  | nop | not | hlt =>
    rw [runTimes_of_end 4 hr (signalsAt_of_decoded hr hri) rfl]
    exact ⟨rfl, rfl, rfl⟩
  | sta =>
    rw [runTimes_of_sta 0 hr ht hri]
    exact ⟨rfl, rfl, rfl⟩
  | lda | add | or | and =>
    rw [runTimes_of_load 0 hr ht hri (by simp; rfl)]
    exact ⟨rfl, rfl, rfl⟩
  | jmp =>
    rw [runTimes_of_jumpIf 2 hr ht fun t => by rw [hri, controlUnit_some, timingTable_jmp]]
    exact ⟨rfl, rfl, rfl⟩
  | jn =>
    rw [runTimes_of_jumpIf (cond := s.n) 2 hr ht fun t => by rw [hri, controlUnit_some, fetchPhase_n]]
    refine ⟨rfl, ?_, ?_⟩ <;> cases s.n <;> rfl
  | jz =>
    rw [runTimes_of_jumpIf (cond := s.z) 2 hr ht fun t => by
      rw [hri, controlUnit_some, timingTable_jz, fetchPhase_z]]
    refine ⟨rfl, ?_, ?_⟩ <;> cases s.z <;> rfl

/-- Settles O53: the trace of the instruction at the boundary, the fetch phase alone for an undefined code, and the
equations of Read and Write. -/
theorem accessesOfEachInstruction : Obligations.AccessesOfEachInstruction := by
  unfold Obligations.AccessesOfEachInstruction
  refine fun s hb => ⟨fun m hm => (instrTrace_of_decoded hb hm).2.2, fun hd => ?_,
    fun tm d n z => ⟨time_of_controlUnit_read, fun h => ((controlUnit_write_iff tm d n z).1 h).1⟩⟩
  rw [instrTrace, runTimes_of_boundary 5 hb, runTimes_of_undefined (s := fetchPhase s) hb.1 hd rfl]

end Sys2Proof.Machine

/-! ## The step at a boundary whose opcode byte decodes (30_encoding.md R57, 20_memory.md R43) -/

namespace Sys2Proof.Machine

open Sys2Proof

/-- Under the policies of the model the decoder and the control unit see the same operation in an opcode byte. -/
theorem decodeOpcode_policies_ok_iff (b : Byte) (m : Mnemonic) :
    decodeOpcode policies b = .ok m ↔ decoded b = some m := by
  unfold decodeOpcode decoded
  cases mnemonicOf (codeOf b) <;> simp [policies]

theorem fetchInstr_of_decodeOpcode {p : Policies} {s : State} {m : Mnemonic}
    (h : decodeOpcode p (opcodeAt s) = .ok m) : fetchInstr p s = .ok (m.instr (operandAt s)) := by
  unfold opcodeAt at h
  rw [fetchInstr, h]
  rfl

/-- The step is the meaning of the decoded instruction, and its accesses are the tabulated ones. -/
theorem step_accesses_of_decodeOpcode {s : State} {m : Mnemonic} (hb : atBoundary s)
    (h : decodeOpcode policies (opcodeAt s) = .ok m) :
    step s = exec (m.instr (operandAt s)) s ∧
    (instrTrace s).accesses = accessTable m s.n s.z s.pc (operandAt s) s.ac := by
  obtain ⟨-, -, hacc⟩ := instrTrace_of_decoded hb ((decodeOpcode_policies_ok_iff _ _).1 h)
  exact ⟨stepWith_of_fetchInstr hb (fetchInstr_of_decodeOpcode h), hacc⟩

end Sys2Proof.Machine

/-! ## STA and LDA (40_load_store.md R71, R72) -/

namespace Sys2Proof.Machine

open Sys2Proof

/-- The next state of STA, field by field. -/
theorem exec_sta_fields (e : Byte) (s : State) :
    exec (.sta e) s = .next { s with
      mem := memWrite s.mem e s.ac, pc := s.pc + 2#8, ri := memRead s.mem s.pc, rem := e, rdm := s.ac
      time := .t0 } := by
  rw [← byte_succ_succ]
  rfl

/-- The state a load of AC from memory leaves, field by field, for each operation of the UAL. -/
theorem loadFromMem_fields (op : UalOp) (e : Byte) (s : State) :
    loadFromMem op e s = { s with
      ac := ual op s.ac (memRead s.mem e)
      n := flagN (ual op s.ac (memRead s.mem e))
      z := flagZ (ual op s.ac (memRead s.mem e))
      pc := s.pc + 2#8, ri := memRead s.mem s.pc, rem := e, rdm := memRead s.mem e, time := .t0 } := by
  rw [← byte_succ_succ]
  rfl

/-- Settles O9: the fields of STA's next state, the two laws of a read after a write, and the step at a boundary. -/
theorem staStoresTheAccumulator : Obligations.StaStoresTheAccumulator := by
  unfold Obligations.StaStoresTheAccumulator
  refine ⟨fun e => ⟨rfl, _, encode_sta e⟩, fun s e => ⟨_, exec_sta_fields e s, rfl, ?_, fun a ha => ?_⟩,
    fun _ => step_accesses_of_decodeOpcode⟩
  · exact memRead_memWrite_same s.mem e s.ac
  · exact memRead_memWrite_other s.mem s.ac ha

/-- Settles O10: LDA is the load of AC through UAL(Y), whose output is the operand read; and the step at a boundary. -/
theorem ldaLoadsTheAccumulator : Obligations.LdaLoadsTheAccumulator := by
  unfold Obligations.LdaLoadsTheAccumulator
  refine ⟨fun e => ⟨rfl, _, encode_lda e⟩, fun s e => ?_, fun _ => step_accesses_of_decodeOpcode⟩
  rw [exec_lda, loadFromMem_fields]
  rfl

end Sys2Proof.Machine

/-! ## The output of the UAL, bit by bit and as a number (41_arithmetic_logic.md R80 to R83) -/

namespace Sys2Proof.Machine

open Sys2Proof

theorem ual_add_toNat (x y : Byte) : (ual .add x y).toNat = (x.toNat + y.toNat) % 256 := BitVec.toNat_add x y

theorem ual_or_bit (x y : Byte) (i : Nat) : (ual .or x y).getLsbD i = (x.getLsbD i || y.getLsbD i) :=
  BitVec.getLsbD_or

theorem ual_and_bit (x y : Byte) (i : Nat) : (ual .and x y).getLsbD i = (x.getLsbD i && y.getLsbD i) :=
  BitVec.getLsbD_and

theorem ual_not_bit (x y : Byte) {i : Nat} (hi : i < 8) : (ual .not x y).getLsbD i = !x.getLsbD i := by
  rw [ual, BitVec.getLsbD_not, decide_eq_true hi, Bool.true_and]

theorem ual_not_toNat (x y : Byte) : (ual .not x y).toNat = 255 - x.toNat := BitVec.toNat_not

/-- In two's complement NOT is one less than the negation. -/
theorem ual_not_toInt (x y : Byte) : (ual .not x y).toInt = -x.toInt - 1 := by
  rw [BitVec.toInt_eq_toNat_cond, BitVec.toInt_eq_toNat_cond, ual_not_toNat]
  omega

theorem ual_not_eq_zero_iff (x y : Byte) : ual .not x y = 0x00#8 ↔ x = 0xFF#8 := BitVec.not_eq_comm

theorem ual_not_twice (x y y' : Byte) : ual .not (ual .not x y) y' = x := BitVec.not_not

end Sys2Proof.Machine

/-! ## ADD, OR, AND and NOT (41_arithmetic_logic.md R80 to R83) -/

namespace Sys2Proof.Machine

open Sys2Proof

@[simp] theorem loadFromMem_ac (op : UalOp) (e : Byte) (s : State) :
    (loadFromMem op e s).ac = ual op s.ac (memRead s.mem e) := rfl

/-- The next state of a load of AC from memory, its flags read off the AC it loads (10_state.md R16, R17). -/
theorem loadFromMem_fields_of_ac (op : UalOp) (e : Byte) (s : State) :
    loadFromMem op e s = { s with
      ac := (loadFromMem op e s).ac
      n := (loadFromMem op e s).ac.getLsbD 7
      z := decide ((loadFromMem op e s).ac = 0x00#8)
      pc := s.pc + 2#8, ri := memRead s.mem s.pc, rem := e, rdm := memRead s.mem e, time := .t0 } :=
  loadFromMem_fields op e s

/-- The next state of NOT, field by field. The UAL does not look at its input Y, the opcode byte in RDM. -/
theorem exec_not_fields (s : State) :
    exec .not s = .next { s with
      ac := ual .not s.ac (opcodeAt s)
      n := (ual .not s.ac (opcodeAt s)).getLsbD 7
      z := decide (ual .not s.ac (opcodeAt s) = 0x00#8)
      pc := s.pc + 1#8, ri := memRead s.mem s.pc, rem := s.pc, rdm := memRead s.mem s.pc, time := .t0 } := rfl

/-- NOT after NOT restores AC and sets the flags from it (41_arithmetic_logic.md R83). -/
theorem exec_not_of_ac_not {s t : State} {y : Byte} (h : t.ac = ual .not s.ac y) :
    ∃ u, exec .not t = .next u ∧ u.ac = s.ac ∧ u.n = s.ac.getLsbD 7 ∧ u.z = decide (s.ac = 0x00#8) := by
  refine ⟨_, exec_not_fields t, ?_⟩
  simp only [h, ual_not_twice, and_self]

/-- Settles O11: ADD is the load of AC through UAL(ADD), whose output is the sum modulo 256; and the step at a
boundary. -/
theorem addLoadsTheSumModulo256 : Obligations.AddLoadsTheSumModulo256 := by
  unfold Obligations.AddLoadsTheSumModulo256
  refine ⟨fun e => ⟨rfl, _, encode_add e⟩,
    fun s e => ⟨_, exec_add e s, ?_, loadFromMem_fields_of_ac .add e s⟩, fun _ => step_accesses_of_decodeOpcode⟩
  rw [loadFromMem_ac, ual_add_toNat]

/-- Settles O12: OR is the load of AC through UAL(OR), whose output is the or bit by bit; and the step at a boundary. -/
theorem orLoadsTheBitwiseOr : Obligations.OrLoadsTheBitwiseOr := by
  unfold Obligations.OrLoadsTheBitwiseOr
  refine ⟨fun e => ⟨rfl, _, encode_or e⟩,
    fun s e => ⟨_, exec_or e s, fun i _ => ?_, loadFromMem_fields_of_ac .or e s⟩,
    fun _ => step_accesses_of_decodeOpcode⟩
  rw [loadFromMem_ac, ual_or_bit]

/-- Settles O13: AND is the load of AC through UAL(AND), whose output is the and bit by bit; and the step at a
boundary. -/
theorem andLoadsTheBitwiseAnd : Obligations.AndLoadsTheBitwiseAnd := by
  unfold Obligations.AndLoadsTheBitwiseAnd
  refine ⟨fun e => ⟨rfl, _, encode_and e⟩,
    fun s e => ⟨_, exec_and e s, fun i _ => ?_, loadFromMem_fields_of_ac .and e s⟩,
    fun _ => step_accesses_of_decodeOpcode⟩
  rw [loadFromMem_ac, ual_and_bit]

/-- Settles O14: the fields of NOT's next state, the readings of the complement that UAL(NOT) puts out, NOT twice, and
the step at a boundary. -/
theorem notLoadsTheComplement : Obligations.NotLoadsTheComplement := by
  unfold Obligations.NotLoadsTheComplement
  refine ⟨⟨rfl, _, encode_not⟩, fun s => ⟨_, exec_not_fields s, fun _ => ual_not_bit s.ac (opcodeAt s),
    ual_not_toNat s.ac (opcodeAt s), ual_not_toInt s.ac (opcodeAt s), ?_, rfl, rfl,
    exec_not_of_ac_not (y := opcodeAt s) rfl⟩, fun _ => step_accesses_of_decodeOpcode⟩
  rw [ual_not_bit s.ac _ (by decide : 7 < 8)]
  simp only [ual_not_eq_zero_iff]

end Sys2Proof.Machine

/-! ## JMP, JN and JZ (42_jumps.md R90 to R92) -/

namespace Sys2Proof.Machine

open Sys2Proof

/-- The state a jump that is taken leaves, field by field. -/
theorem jumpTo_fields (e : Byte) (s : State) :
    gotoT0 (jumpTo e (fetchPhase s)) = { s with
      pc := e, ri := memRead s.mem s.pc, rem := s.pc + 1#8, rdm := e, time := .t0 } := rfl

/-- The state of a conditional jump whose condition holds: that of a jump that is taken. -/
theorem jumpIf_fields_of_true {c : Bool} (hc : c = true) (e : Byte) (s : State) :
    gotoT0 (jumpIf c e (fetchPhase s)) = { s with
      pc := e, ri := memRead s.mem s.pc, rem := s.pc + 1#8, rdm := e, time := .t0 } := by
  rw [hc, jumpIf_true, jumpTo_fields]

/-- The state of a conditional jump whose condition fails: REM and RDM are as the fetch phase left them, because the
operand byte is skipped without being read (30_encoding.md R58). -/
theorem jumpIf_fields_of_false {c : Bool} (hc : c = false) (e : Byte) (s : State) :
    gotoT0 (jumpIf c e (fetchPhase s)) = { s with
      pc := s.pc + 2#8, ri := memRead s.mem s.pc, rem := s.pc, rdm := memRead s.mem s.pc, time := .t0 } := by
  rw [hc, jumpIf_false, ← byte_succ_succ]
  rfl

/-- Settles O15: JMP is the jump that is taken, whatever the flags; and the step at a boundary. -/
theorem jmpLoadsThePc : Obligations.JmpLoadsThePc := by
  unfold Obligations.JmpLoadsThePc
  refine ⟨fun e => ⟨rfl, _, encode_jmp e⟩, fun s e => ?_, fun _ => step_accesses_of_decodeOpcode⟩
  rw [exec_jmp, jumpTo_fields]

/-- Settles O16: JN is the conditional jump on N, for both values of N; and the step at a boundary. -/
theorem jnJumpsIfNegative : Obligations.JnJumpsIfNegative := by
  unfold Obligations.JnJumpsIfNegative
  refine ⟨fun e => ⟨rfl, _, encode_jn e⟩, fun s e => ⟨fun hn => ?_, fun hn => ?_⟩,
    fun _ => step_accesses_of_decodeOpcode⟩
  · rw [exec_jn, jumpIf_fields_of_true hn]
  · rw [exec_jn, jumpIf_fields_of_false hn]

/-- Settles O17: JZ is the conditional jump on Z, for both values of Z; and the step at a boundary. -/
theorem jzJumpsIfZero : Obligations.JzJumpsIfZero := by
  unfold Obligations.JzJumpsIfZero
  refine ⟨fun e => ⟨rfl, _, encode_jz e⟩, fun s e => ⟨fun hz => ?_, fun hz => ?_⟩,
    fun _ => step_accesses_of_decodeOpcode⟩
  · rw [exec_jz, jumpIf_fields_of_true hz]
  · rw [exec_jz, jumpIf_fields_of_false hz]

end Sys2Proof.Machine

/-! ## NOP and HLT (43_nop_hlt.md R100, R101) -/

namespace Sys2Proof.Machine

open Sys2Proof

/-- The next state of NOP, field by field: what the fetch phase leaves, at the next instruction boundary. -/
theorem exec_nop_fields (s : State) :
    exec .nop s = .next { s with
      pc := s.pc + 1#8, ri := memRead s.mem s.pc, rem := s.pc, rdm := memRead s.mem s.pc, time := .t0 } := rfl

/-- The next state of HLT, field by field: what the fetch phase leaves, stopped there because HLT gives no "goto t0"
(43_nop_hlt.md R102). The statements say nothing of the time, which is the model's own (log 12). -/
theorem exec_hlt_fields (s : State) :
    exec .hlt s = .next { s with
      run := .halted
      pc := s.pc + 1#8, ri := memRead s.mem s.pc, rem := s.pc, rdm := memRead s.mem s.pc, time := .t3 } := rfl

/-- Settles O8: the fields of NOP's next state, and the step at a boundary. -/
theorem nopOnlyAdvancesThePc : Obligations.NopOnlyAdvancesThePc := by
  unfold Obligations.NopOnlyAdvancesThePc
  exact ⟨⟨rfl, _, encode_nop⟩, exec_nop_fields, fun _ => step_accesses_of_decodeOpcode⟩

/-- Settles O18: the fields of HLT's next state, whatever its time, and the step at a boundary. -/
theorem hltHaltsOnePastItself : Obligations.HltHaltsOnePastItself := by
  unfold Obligations.HltHaltsOnePastItself
  exact ⟨⟨rfl, _, encode_hlt⟩, fun s => ⟨_, exec_hlt_fields s, rfl⟩, fun _ => step_accesses_of_decodeOpcode⟩

end Sys2Proof.Machine

/-! ## One time step under its signals (45_control_sequences.md R127, R136) -/

namespace Sys2Proof.Machine

open Sys2Proof

/-- Out of `Running` no signal is asserted, so a machine with an active signal is running. -/
theorem running_of_signal (f : Signals → Bool) (hf : f {} = false) {s : State} (h : f (signalsAt s) = true) :
    s.run = .running := by
  unfold signalsAt at h
  split at h
  · assumption
  · exact absurd h (by simp [hf])
  · exact absurd h (by simp [hf])

/-- A time that loads AC stores in it the operation selected, with X from AC and Y from RDM, and the flags formed from
the same output (45_control_sequences.md R128, R129). -/
theorem tick_of_cargaAC {s : State} {op : UalOp} (h : (signalsAt s).cargaAC = true)
    (hop : (signalsAt s).ualOp = some op) :
    (tick s).ac = ual op s.ac s.rdm ∧ (tick s).n = flagN (ual op s.ac s.rdm) ∧
    (tick s).z = flagZ (ual op s.ac s.rdm) := by
  have hr : s.run = .running := running_of_signal Signals.cargaAC rfl h
  have hnz : (signalsAt s).cargaNZ = true := by
    rw [signalsAt_running hr] at h ⊢
    rwa [controlUnit_cargaNZ]
  simp [tick_running hr, datapath, ualOutput, h, hnz, hop]

/-- A time that loads REM stores what the multiplexer passes. -/
theorem tick_rem_of_cargaREM {s : State} (h : (signalsAt s).cargaREM = true) :
    (tick s).rem = if (signalsAt s).sel then s.rdm else s.pc := by
  simp [tick_running (running_of_signal Signals.cargaREM rfl h), datapath, h]

theorem tick_time {s : State} (hr : s.run = .running) : (tick s).time = nextTime (signalsAt s) s.time := by
  rw [tick_running hr, datapath]

theorem tick_run {s : State} (hr : s.run = .running) :
    (tick s).run = if (signalsAt s).halt then .halted else .running := by
  rw [tick_running hr, datapath, hr]

/-- Out of `Running` no number of time steps changes anything. -/
theorem ticks_not_running {s : State} (h : s.run ≠ .running) (k : Nat) : ticks k s = s := by
  induction k with
  | zero => rfl
  | succ k ih => rw [ticks, tick_not_running h, ih]

end Sys2Proof.Machine

/-! ## The order of the times (45_control_sequences.md R130) -/

namespace Sys2Proof.Machine

open Sys2Proof

theorem controlUnit_halt_iff (t : Time) (d : Option Mnemonic) (n z : Bool) :
    (controlUnit t d n z).halt = true ↔ t = .t3 ∧ d = some .hlt := by simp [controlUnit]

/-- No time ends an instruction in two ways: HLT gives no "goto t0". -/
theorem signalsAt_halt_of_gotoT0 {s : State} (hr : s.run = .running) (h : (signalsAt s).gotoT0 = true) :
    (signalsAt s).halt = false := by
  rw [signalsAt_running hr] at h ⊢
  refine Bool.eq_false_iff.2 fun hh => ?_
  obtain ⟨ht, hd⟩ := (controlUnit_halt_iff _ _ _ _).1 hh
  simp [ht, hd, controlUnit] at h

theorem timeIndex_followingTime {t : Time} (h : t ≠ .t7) : timeIndex (followingTime t) = timeIndex t + 1 := by
  cases t with
  | t7 => exact absurd rfl h
  | _ => rfl

/-- After "goto t0" the machine is at an instruction boundary. -/
theorem tick_of_gotoT0 {s : State} (hr : s.run = .running) (h : (signalsAt s).gotoT0 = true) :
    (tick s).time = .t0 ∧ (tick s).run = .running := by
  have hh : (signalsAt s).halt = false := signalsAt_halt_of_gotoT0 hr h
  simp [tick_time hr, tick_run hr, nextTime, h, hh]

theorem tick_of_going_on {s : State} (hr : s.run = .running) (hg : (signalsAt s).gotoT0 = false)
    (hh : (signalsAt s).halt = false) : (tick s).time = followingTime s.time ∧ (tick s).run = .running := by
  simp [tick_time hr, tick_run hr, nextTime, hg, hh]

/-- Settles O50: the three ways a time ends, and t7 of LDA, where "goto t0" acts together with the load of AC. -/
theorem timesFollowOneAnother : Obligations.TimesFollowOneAnother := by
  unfold Obligations.TimesFollowOneAnother
  refine fun s hr => ⟨tick_of_gotoT0 hr, fun hh => ?_, fun hg hh => ?_, fun ht hd => ?_⟩
  · have hrun : (tick s).run = .halted := by rw [tick_run hr, if_pos hh]
    exact ⟨hrun, ticks_not_running (by simp [hrun])⟩
  · obtain ⟨htime, hrun⟩ := tick_of_going_on hr hg hh
    exact ⟨hrun, fun h7 => by rw [htime, timeIndex_followingTime h7]⟩
  · have hc : signalsAt s = { ualY := true, cargaAC := true, cargaNZ := true, gotoT0 := true } := by
      rw [signalsAt_of_decoded hr hd, ht, timingTable]
    obtain ⟨hac, -, -⟩ := tick_of_cargaAC (s := s) (op := .y) (by rw [hc]) (by rw [hc]; rfl)
    exact ⟨hc, hac, (tick_of_gotoT0 hr (by rw [hc])).1⟩

end Sys2Proof.Machine

/-! ## The fetch phase (45_control_sequences.md R112) -/

namespace Sys2Proof.Machine

open Sys2Proof

/-- Settles O51: the signals of the three times, and the state after one, two and three of them. -/
theorem fetchPhaseTakesT0ToT2 : Obligations.FetchPhaseTakesT0ToT2 := by
  unfold Obligations.FetchPhaseTakesT0ToT2
  refine ⟨fun d n z => ⟨controlUnit_t0 d n z, controlUnit_t1 d n z, controlUnit_t2 d n z⟩, fun s hb => ?_⟩
  have h1 : tick s = { s with rem := s.pc, time := .t1 } := tick_t0 hb.1 hb.2
  refine ⟨h1, ?_, ticks_three_of_boundary hb⟩
  calc ticks 2 s = tick { s with rem := s.pc, time := .t1 } := by rw [← h1]; rfl
    _ = _ := tick_t1 hb.1 rfl

end Sys2Proof.Machine

/-! ## The five operations of the UAL and their selects (45_control_sequences.md R128, R133) -/

namespace Sys2Proof.Machine

open Sys2Proof

theorem controlUnit_cargaAC_iff (t : Time) (d : Option Mnemonic) (n z : Bool) :
    (controlUnit t d n z).cargaAC = true ↔
      (t = .t7 ∧ d ∈ [some .lda, some .add, some .or, some .and]) ∨ (t = .t3 ∧ d = some .not) := by
  simp [controlUnit, or_assoc]

theorem controlUnit_one_select_of_cargaAC {t : Time} {d : Option Mnemonic} {n z : Bool}
    (h : (controlUnit t d n z).cargaAC = true) :
    [(controlUnit t d n z).ualY, (controlUnit t d n z).ualADD, (controlUnit t d n z).ualOR,
      (controlUnit t d n z).ualAND, (controlUnit t d n z).ualNOT].count true = 1 := by
  obtain ⟨rfl, hd⟩ | ⟨rfl, rfl⟩ := (controlUnit_cargaAC_iff t d n z).1 h
  · simp only [List.mem_cons, List.not_mem_nil, or_false] at hd
    obtain rfl | rfl | rfl | rfl := hd <;> rfl
  · rfl

/-- Each select of the UAL belongs to one instruction. -/
theorem decoded_of_controlUnit_select (t : Time) (d : Option Mnemonic) (n z : Bool) :
    ((controlUnit t d n z).ualY = true → d = some .lda) ∧ ((controlUnit t d n z).ualADD = true → d = some .add) ∧
    ((controlUnit t d n z).ualOR = true → d = some .or) ∧ ((controlUnit t d n z).ualAND = true → d = some .and) ∧
    ((controlUnit t d n z).ualNOT = true → d = some .not) := by
  simp [controlUnit]

/-- Settles O47: the outputs of the UAL, the equations of its selects with that of carga AC, and the load of AC. -/
theorem ualHasFiveOperations : Obligations.UalHasFiveOperations := by
  unfold Obligations.UalHasFiveOperations
  exact ⟨fun x y => ⟨rfl, ual_add_toNat x y, fun i hi => ⟨ual_or_bit x y i, ual_and_bit x y i, ual_not_bit x y hi⟩⟩,
    fun t d n z => ⟨controlUnit_one_select_of_cargaAC, decoded_of_controlUnit_select t d n z⟩,
    fun _ _ => tick_of_cargaAC⟩

end Sys2Proof.Machine

/-! ## The multiplexer in front of REM (45_control_sequences.md R141) -/

namespace Sys2Proof.Machine

open Sys2Proof

theorem controlUnit_sel_iff (t : Time) (d : Option Mnemonic) (n z : Bool) :
    (controlUnit t d n z).sel = true ↔
      t = .t5 ∧ d ∈ [some .sta, some .lda, some .add, some .or, some .and] := by
  simp [controlUnit, or_assoc]

/-- REM is loaded at t0 and t3 from PC and at t5 from RDM, and at no other time. -/
theorem time_sel_of_controlUnit_cargaREM {t : Time} {d : Option Mnemonic} {n z : Bool}
    (h : (controlUnit t d n z).cargaREM = true) :
    (t = .t0 ∧ (controlUnit t d n z).sel = false) ∨ (t = .t3 ∧ (controlUnit t d n z).sel = false) ∨
    (t = .t5 ∧ (controlUnit t d n z).sel = true) := by
  cases t with
  | t0 => exact .inl ⟨rfl, rfl⟩
  | t3 => exact .inr (.inl ⟨rfl, rfl⟩)
  | t5 => exact .inr (.inr ⟨rfl, h⟩)
  | t1 | t2 | t4 | t6 | t7 => simp [controlUnit] at h

/-- Settles O48: the equations of sel and carga REM, and the load of REM through the multiplexer. -/
theorem selPassesRdmOnlyAtT5 : Obligations.SelPassesRdmOnlyAtT5 := by
  unfold Obligations.SelPassesRdmOnlyAtT5
  exact ⟨fun t d n z => ⟨controlUnit_sel_iff t d n z, time_sel_of_controlUnit_cargaREM⟩,
    fun _ => tick_rem_of_cargaREM⟩

end Sys2Proof.Machine

/-! ## Times, reads and writes of each instruction (70_reset_and_hazards.md R178) -/

namespace Sys2Proof.Machine

open Sys2Proof

/-- The times are numbered from t0, so an instruction takes one more than the number of its last time. -/
theorem timesTable_eq_timeIndex_lastTime (m : Mnemonic) (n z : Bool) :
    timesTable m n z = timeIndex (lastTime m n z) + 1 := by
  cases m with
  | jn => cases n <;> rfl
  | jz => cases z <;> rfl
  | _ => rfl

theorem length_reads_accessTable (m : Mnemonic) (n z : Bool) (a e ac : Byte) :
    ((accessTable m n z a e ac).filter Access.isRead).length = readsTable m n z := by
  cases m with
  | jn => cases n <;> rfl
  | jz => cases z <;> rfl
  | _ => rfl

theorem length_writes_accessTable (m : Mnemonic) (n z : Bool) (a e ac : Byte) :
    ((accessTable m n z a e ac).filter (fun x => !x.isRead)).length = writesTable m := by
  cases m with
  | jn => cases n <;> rfl
  | jz => cases z <;> rfl
  | _ => rfl

/-- Settles O54: the times and the accesses of the instruction's trace are the tabulated ones, and the reads and writes
are counted in the table of accesses. -/
theorem timesOfEachInstruction : Obligations.TimesOfEachInstruction := by
  unfold Obligations.TimesOfEachInstruction
  intro s m hb hm
  obtain ⟨-, htimes, hacc⟩ := instrTrace_of_decoded hb hm
  rw [hacc, ticks_three_of_boundary hb]
  exact ⟨htimes, timesTable_eq_timeIndex_lastTime m s.n s.z, fetchPhase_time s, length_reads_accessTable ..,
    length_writes_accessTable ..⟩

end Sys2Proof.Machine

/-! ## The decoder (30_encoding.md R50 to R58)

The two halves of an opcode byte, the map of the code, and what decodes: an opcode byte with a defined code, the bytes
its instruction has after it, and any bytes behind them. -/

namespace Sys2Proof.Machine

open Sys2Proof

@[simp] theorem codeOf_append (c x : BitVec 4) : codeOf (c ++ x) = c := BitVec.extractLsb'_append_eq_left

@[simp] theorem lowHalf_append (c x : BitVec 4) : lowHalf (c ++ x) = x := BitVec.extractLsb'_append_eq_right

theorem codeOf_append_lowHalf (b : Byte) : codeOf b ++ lowHalf b = b :=
  BitVec.extractLsb'_append_extractLsb' (w := 4) (len := 4)

/-- An opcode byte with its low half cleared. -/
theorem codeOf_append_zero (b : Byte) : codeOf b ++ 0#4 = b &&& 0xF0#8 :=
  calc codeOf b ++ 0#4 = (codeOf b &&& BitVec.allOnes 4) ++ (lowHalf b &&& 0#4) := by
        rw [BitVec.and_allOnes, BitVec.and_zero]
    _ = (codeOf b ++ lowHalf b) &&& (BitVec.allOnes 4 ++ 0#4) := BitVec.and_append.symm
    _ = b &&& 0xF0#8 := by rw [codeOf_append_lowHalf]; rfl

theorem decoded_append (c x : BitVec 4) : decoded (c ++ x) = mnemonicOf c := by rw [decoded, codeOf_append]

theorem mnemonicOf_eq_none_iff (c : BitVec 4) : mnemonicOf c = none ↔ c ∈ undefinedCodes := by
  revert c
  decide

theorem exists_mnemonicOf {c : BitVec 4} (h : c ∉ undefinedCodes) : ∃ m, mnemonicOf c = some m :=
  Option.ne_none_iff_exists'.1 (mt (mnemonicOf_eq_none_iff c).1 h)

/-- The map gives the code of an instruction its operation (30_encoding.md R55). -/
theorem mnemonicOf_code (m : Mnemonic) (e : Byte) : mnemonicOf (m.instr e).code = some m := by cases m <;> rfl

theorem code_of_mnemonicOf {c : BitVec 4} {m : Mnemonic} (h : mnemonicOf c = some m) (e : Byte) :
    (m.instr e).code = c := by
  have hall : ∀ c : BitVec 4, ∀ m ∈ mnemonicOf c, (m.instr 0#8).code = c := by decide
  rw [← hall c m h]
  cases m <;> rfl

theorem exists_instr (i : Instr) : ∃ (m : Mnemonic) (e : Byte), m.instr e = i := by
  cases i with
  | nop => exact ⟨.nop, 0#8, rfl⟩
  | not => exact ⟨.not, 0#8, rfl⟩
  | hlt => exact ⟨.hlt, 0#8, rfl⟩
  | sta e => exact ⟨.sta, e, rfl⟩
  | lda e => exact ⟨.lda, e, rfl⟩
  | add e => exact ⟨.add, e, rfl⟩
  | or e => exact ⟨.or, e, rfl⟩
  | and e => exact ⟨.and, e, rfl⟩
  | jmp e => exact ⟨.jmp, e, rfl⟩
  | jn e => exact ⟨.jn, e, rfl⟩
  | jz e => exact ⟨.jz, e, rfl⟩

theorem encode_eq_cons (i : Instr) : encode i = i.opcodeByte :: (encode i).tail := by
  unfold encode
  cases i.operand? <;> rfl

theorem encode_length (i : Instr) : (encode i).length = i.length := by
  unfold encode Instr.length
  cases i.operand? <;> rfl

/-- Where UNDEF_OPCODE_POLICY is `fault`, an undefined code is rejected, whatever the low half. -/
theorem decodeOpcode_of_undefined {p : Policies} {b : Byte} (hp : p.undefOpcode = .fault) (h : decoded b = none) :
    decodeOpcode p b = .error (.illegalOpcode b) := by
  unfold decoded at h
  simp [decodeOpcode, h, hp]

/-- Where UNDEF_OPCODE_POLICY is `nop1`, an undefined code is read as NOP. -/
theorem decodeOpcode_of_undefined_nop1 {p : Policies} {b : Byte} (hp : p.undefOpcode = .nop1)
    (h : decoded b = none) : decodeOpcode p b = .ok .nop := by
  unfold decoded at h
  simp [decodeOpcode, h, hp]

/-- Only LOW_NIBBLE_POLICY bears on a defined code. -/
theorem decodeOpcode_of_decoded {b : Byte} {m : Mnemonic} (p : Policies) (h : decoded b = some m) :
    decodeOpcode p b = if p.lowNibble = .refuse ∧ lowHalf b ≠ 0#4 then .error (.nonZeroLowNibble b) else .ok m := by
  unfold decoded at h
  obtain ⟨_ | _, u⟩ := p
  · simp [decodeOpcode, h]
  · by_cases hl : lowHalf b = 0#4 <;> simp [decodeOpcode, h, hl]

/-- An opcode byte with a defined code, whatever its low half, begins its instruction. -/
theorem decode_of_decoded {b : Byte} {m : Mnemonic} (h : decoded b = some m) (e : Byte) (rest : List Byte) :
    decode (b :: ((encode (m.instr e)).tail ++ rest)) = .ok (m.instr e, rest) := by
  have hm : decodeOpcode policies b = .ok m := (decodeOpcode_policies_ok_iff b m).2 h
  simp only [decode, decodeWith, hm]
  cases m <;> rfl

/-- The converse: nothing else decodes. -/
theorem decode_ok_cases {bytes rest : List Byte} {i : Instr} (h : decode bytes = .ok (i, rest)) :
    ∃ b m e, decoded b = some m ∧ m.instr e = i ∧ bytes = b :: ((encode i).tail ++ rest) := by
  unfold decode decodeWith at h
  split at h
  · cases h
  · next b tail =>
    split at h
    · cases h
    · next m hm =>
      have hd : decoded b = some m := (decodeOpcode_policies_ok_iff b m).1 hm
      split at h
      · next hf =>
        obtain ⟨rfl, rfl⟩ := Prod.mk.inj (Except.ok.inj h)
        exact ⟨b, m, 0#8, hd, rfl, by cases m <;> cases hf <;> rfl⟩
      · cases h
      · next e tail' hf =>
        obtain ⟨rfl, rfl⟩ := Prod.mk.inj (Except.ok.inj h)
        exact ⟨b, m, e, hd, rfl, by cases m <;> cases hf <;> rfl⟩

theorem decoded_opcodeByte (m : Mnemonic) (e : Byte) : decoded (m.instr e).opcodeByte = some m := by
  rw [Instr.opcodeByte, decoded_append, mnemonicOf_code]

theorem opcodeByte_of_decoded {b : Byte} {m : Mnemonic} (h : decoded b = some m) (e : Byte) :
    (m.instr e).opcodeByte = b &&& 0xF0#8 := by
  rw [Instr.opcodeByte, code_of_mnemonicOf h e, codeOf_append_zero]

end Sys2Proof.Machine

/-! ## Decode of encode (30_encoding.md R57, R58) -/

namespace Sys2Proof.Machine

open Sys2Proof

theorem decode_encode_append (i : Instr) (rest : List Byte) : decode (encode i ++ rest) = .ok (i, rest) := by
  obtain ⟨m, e, rfl⟩ := exists_instr i
  rw [encode_eq_cons, List.cons_append]
  exact decode_of_decoded (decoded_opcodeByte m e) e rest

theorem disassemble_succ_of_decode {n : Nat} {bytes rest : List Byte} {i : Instr} {is : List Instr}
    (h : decode bytes = .ok (i, rest)) (hrest : disassemble n rest = .ok is) :
    disassemble (n + 1) bytes = .ok (i :: is) := by
  cases bytes with
  | nil => cases h
  | cons b tail => simp [disassemble, h, hrest]

theorem disassemble_encode (is : List Instr) : disassemble is.length (is.flatMap encode) = .ok is := by
  induction is with
  | nil => rfl
  | cons i is ih => exact disassemble_succ_of_decode (decode_encode_append i _) ih

/-- Settles O5: one instruction by the decoder's lemma for its opcode byte, a sequence by induction on it. -/
theorem decodeOfEncodeIsTheInstruction : Obligations.DecodeOfEncodeIsTheInstruction := by
  unfold Obligations.DecodeOfEncodeIsTheInstruction
  exact ⟨fun i rest _ => decode_encode_append i rest, fun is _ => disassemble_encode is⟩

end Sys2Proof.Machine

/-! ## Encode of decode (30_encoding.md R50, R53) -/

namespace Sys2Proof.Machine

open Sys2Proof

theorem wellFormedWord_cons_iff (b : Byte) (tail : List Byte) :
    wellFormedWord (b :: tail) = true ↔
      wordLength? (codeOf b) = some (tail.length + 1) ∧ lowHalf b = 0#4 := by
  simp [wellFormedWord, codeOf, lowHalf]

theorem and_F0_of_lowHalf {b : Byte} (h : lowHalf b = 0#4) : b &&& 0xF0#8 = b := by
  rw [← codeOf_append_zero, ← h, codeOf_append_lowHalf]

/-- The column "bytes" of the map is the length of the instruction the code selects. -/
theorem wordLength?_eq (c : BitVec 4) : wordLength? c = (mnemonicOf c).map fun m => (m.instr 0#8).length := by
  revert c
  decide

/-- The bytes after the opcode byte, when there are as many as the instruction asks for, are those of its encoding. -/
theorem encode_instr_tail {m : Mnemonic} {tail : List Byte} (h : (m.instr 0#8).length = tail.length + 1) :
    (encode (m.instr (tail.headD 0#8))).tail = tail := by
  rcases tail with _ | ⟨e, _ | ⟨e', tail⟩⟩
  · cases m with
    | nop | not | hlt => rfl
    | sta | lda | add | or | and | jmp | jn | jz => simp [Mnemonic.instr, Instr.length, Instr.operand?] at h
  · cases m with
    | nop | not | hlt => simp [Mnemonic.instr, Instr.length, Instr.operand?] at h
    | sta | lda | add | or | and | jmp | jn | jz => rfl
  · cases m <;> simp [Mnemonic.instr, Instr.length, Instr.operand?] at h

theorem exists_encode_of_wellFormedWord {w : List Byte} (h : wellFormedWord w = true) : ∃ i, encode i = w := by
  cases w with
  | nil => cases h
  | cons b tail =>
    obtain ⟨hlen, hlow⟩ := (wellFormedWord_cons_iff b tail).1 h
    obtain ⟨m, hm, hlen⟩ := Option.map_eq_some_iff.1 ((wordLength?_eq (codeOf b)).symm.trans hlen)
    refine ⟨m.instr (tail.headD 0#8), ?_⟩
    rw [encode_eq_cons, encode_instr_tail hlen, opcodeByte_of_decoded hm, and_F0_of_lowHalf hlow]

/-- Settles O6: what decodes is an opcode byte with the rest of its instruction's encoding, whose own opcode byte is
that byte with its low half cleared; the map of the lengths gives every well-formed word its instruction. -/
theorem encodeOfDecodeIsTheWord : Obligations.EncodeOfDecodeIsTheWord := by
  unfold Obligations.EncodeOfDecodeIsTheWord
  refine ⟨fun bytes rest i h => ?_, fun w => exists_encode_of_wellFormedWord⟩
  obtain ⟨b, m, e, hb, rfl, rfl⟩ := decode_ok_cases h
  have henc : encode (m.instr e) = (b &&& 0xF0#8) :: (encode (m.instr e)).tail := by
    rw [← opcodeByte_of_decoded hb e, ← encode_eq_cons]
  refine ⟨b :: (encode (m.instr e)).tail, rfl, ?_, rfl, fun b' hb' => ?_, fun hw => ?_⟩
  · rw [← encode_length, henc]
    rfl
  · obtain rfl : b = b' := by simpa using hb'
    rw [henc, List.head?_cons]
  · rw [henc, and_F0_of_lowHalf ((wellFormedWord_cons_iff _ _).1 hw).2]
    rfl

end Sys2Proof.Machine

/-! ## The opcode map and the policies (30_encoding.md R53 to R56) -/

namespace Sys2Proof.Machine

open Sys2Proof

/-- Settles O1: each word is an opcode byte with a defined code and the rest of its instruction, but for the last. -/
theorem wordsFromTheOpcodeMapDecode : Obligations.WordsFromTheOpcodeMapDecode := by
  unfold Obligations.WordsFromTheOpcodeMapDecode
  exact ⟨rfl, rfl, rfl, rfl, rfl, rfl, rfl, rfl⟩

/-- The bytes and the operand of an instruction follow from its format (30_encoding.md R50, R51). -/
theorem encode_instr (m : Mnemonic) (e : Byte) :
    encode (m.instr e) =
      (if m.format = .op then [(m.instr e).code ++ 0#4] else [(m.instr e).code ++ 0#4, e]) ∧
    ((m.instr e).length, (m.instr e).operand?) = (if m.format = .op then (1, none) else (2, some e)) := by
  cases m <;> exact ⟨rfl, rfl⟩

/-- Settles O2: the rows' codes and formats are read off, the rest follows from the format. -/
theorem codeMapOfTabela101 : Obligations.CodeMapOfTabela101 := by
  unfold Obligations.CodeMapOfTabela101
  refine ⟨fun row hrow => ?_, mnemonicOf_eq_none_iff⟩
  have hmap : mnemonicOf row.1 = some row.2.1 ∧ row.2.1.format = row.2.2 := by
    revert row
    decide
  obtain ⟨hm, hf⟩ := hmap
  refine ⟨hm, hf, fun e => ⟨code_of_mnemonicOf hm e, ?_⟩⟩
  rw [← hf, ← code_of_mnemonicOf hm e]
  exact encode_instr row.2.1 e

theorem decoded_append_of_mem {c : BitVec 4} (h : c ∈ undefinedCodes) (x : BitVec 4) : decoded (c ++ x) = none := by
  rw [decoded_append, (mnemonicOf_eq_none_iff c).2 h]

/-- Settles O3: the decoder and the control unit see the code alone. -/
theorem lowHalfOfTheOpcodeByteIsIgnored : Obligations.LowHalfOfTheOpcodeByteIsIgnored := by
  unfold Obligations.LowHalfOfTheOpcodeByteIsIgnored
  refine fun c x => ⟨fun m hm => ?_,
    fun hc => decodeOpcode_of_undefined rfl (decoded_append_of_mem hc x)⟩
  rw [decodeOpcode_policies_ok_iff, decoded_append, hm]

/-- Settles O4: the two sides of the map under the two policies. -/
theorem alternativeDecodingPolicies : Obligations.AlternativeDecodingPolicies := by
  unfold Obligations.AlternativeDecodingPolicies
  refine fun c x => ⟨fun hc => ?_, fun m hm => ?_⟩
  · have hd : decoded (c ++ x) = none := decoded_append_of_mem hc x
    exact ⟨decodeOpcode_of_undefined rfl hd, decodeOpcode_of_undefined_nop1 rfl hd⟩
  · have hd : decoded (c ++ x) = some m := by rw [decoded_append, hm]
    exact ⟨fun hx => (decodeOpcode_of_decoded _ hd).trans (if_neg (by simp [hx])),
      fun hx => (decodeOpcode_of_decoded _ hd).trans (if_pos (by simp [hx])),
      (decodeOpcode_of_decoded _ hd).trans (if_neg (by simp))⟩

end Sys2Proof.Machine

/-! ## The step at a boundary, by the code at PC (30_encoding.md R52, 60_exceptions.md R153) -/

namespace Sys2Proof.Machine

open Sys2Proof

/-- The control unit sees the code at PC. -/
theorem decoded_opcodeAt (s : State) : decoded (opcodeAt s) = mnemonicOf (codeAt s) := rfl

theorem step_of_code {s : State} {m : Mnemonic} (hb : atBoundary s) (h : mnemonicOf (codeAt s) = some m) :
    step s = exec (m.instr (operandAt s)) s :=
  stepWith_of_fetchInstr hb (fetchInstr_of_decodeOpcode ((decodeOpcode_policies_ok_iff _ m).2 h))

/-- A rejected opcode byte faults in the state the fetch phase leaves. -/
theorem stepWith_of_rejected {p : Policies} {s : State} {r : Reject} (hb : atBoundary s)
    (h : decodeOpcode p (opcodeAt s) = .error r) :
    stepWith p s = raiseFault (faultReason s.pc r) (fetchPhase s) := by
  have hf : fetchInstr p s = .error r := by
    unfold opcodeAt at h
    simp [fetchInstr, h]
  rw [stepWith_boundary hb.1 hb.2, hf]
  rfl

/-- The policies bear on a step at a boundary only through the opcode byte at PC. -/
theorem stepWith_congr {p q : Policies} {s : State} (hb : atBoundary s)
    (h : decodeOpcode p (opcodeAt s) = decodeOpcode q (opcodeAt s)) : stepWith p s = stepWith q s := by
  have hf : fetchInstr p s = fetchInstr q s := by
    unfold opcodeAt at h
    simp only [fetchInstr, h]
  rw [stepWith_boundary hb.1 hb.2, stepWith_boundary hb.1 hb.2, hf]

/-- Settles O7: the decoder's lemma for an opcode byte, and the step by the code at PC, for each of the eleven codes. -/
theorem eachCodeSelectsItsInstruction : Obligations.EachCodeSelectsItsInstruction := by
  unfold Obligations.EachCodeSelectsItsInstruction
  refine ⟨fun x e rest => ?_, fun s hb => ?_⟩
  · have hdec : ∀ (c : BitVec 4) (m : Mnemonic), mnemonicOf c = some m →
        decode ((c ++ x) :: ((encode (m.instr e)).tail ++ rest)) = .ok (m.instr e, rest) := fun c m hm =>
      decode_of_decoded ((decoded_append c x).trans hm) e rest
    exact ⟨hdec 0b0000#4 .nop rfl, hdec 0b0001#4 .sta rfl, hdec 0b0010#4 .lda rfl, hdec 0b0011#4 .add rfl,
      hdec 0b0100#4 .or rfl, hdec 0b0101#4 .and rfl, hdec 0b0110#4 .not rfl, hdec 0b1000#4 .jmp rfl,
      hdec 0b1001#4 .jn rfl, hdec 0b1010#4 .jz rfl, hdec 0b1111#4 .hlt rfl⟩
  · have hstep : ∀ (c : BitVec 4) (m : Mnemonic), mnemonicOf c = some m → codeAt s = c →
        step s = exec (m.instr (operandAt s)) s := fun c m hm hc => step_of_code hb (hc ▸ hm)
    exact ⟨hstep _ .nop rfl, hstep _ .sta rfl, hstep _ .lda rfl, hstep _ .add rfl, hstep _ .or rfl,
      hstep _ .and rfl, hstep _ .not rfl, hstep _ .jmp rfl, hstep _ .jn rfl, hstep _ .jz rfl, hstep _ .hlt rfl⟩

/-- Settles O34: what decodes at PC is the instruction of the opcode byte there, with the byte after it as operand. -/
theorem stepRunsTheInstructionAtPc : Obligations.StepRunsTheInstructionAtPc := by
  unfold Obligations.StepRunsTheInstructionAtPc
  intro s i rest hb h
  obtain ⟨b, m, e, hm, rfl, hbytes⟩ := decode_ok_cases h
  obtain ⟨rfl, htail⟩ := List.cons.inj hbytes
  rw [step_of_code hb hm]
  cases m with
  | nop | not | hlt => rfl
  | sta | lda | add | or | and | jmp | jn | jz =>
    obtain ⟨rfl, -⟩ := List.cons.inj htail
    rfl

theorem step_of_undefined {s : State} (hb : atBoundary s) (hc : codeAt s ∈ undefinedCodes) :
    step s = raiseFault (.illegalOpcode s.pc (opcodeAt s)) (fetchPhase s) :=
  stepWith_of_rejected hb (decodeOpcode_of_undefined rfl ((mnemonicOf_eq_none_iff _).2 hc))

/-- Settles O35: the fault is the rejection's, in the state the fetch phase leaves. -/
theorem undefinedCodeFaultsAfterTheFetch : Obligations.UndefinedCodeFaultsAfterTheFetch := by
  unfold Obligations.UndefinedCodeFaultsAfterTheFetch
  exact fun s hb hc => step_of_undefined hb hc

/-- Settles O55: the step is the meaning of the instruction at PC, and the instruction's trace ends in the state of that
meaning. -/
theorem organisationRefinesTheInstructions : Obligations.OrganisationRefinesTheInstructions := by
  unfold Obligations.OrganisationRefinesTheInstructions
  intro s hb hc
  obtain ⟨m, hm⟩ := exists_mnemonicOf hc
  rw [step_of_code hb hm]
  exact (instrTrace_of_decoded hb hm).1

/-- Settles O36: a defined code has its meaning as next state, an undefined one faults. -/
theorem everyDefinedCodeCompletes : Obligations.EveryDefinedCodeCompletes := by
  unfold Obligations.EveryDefinedCodeCompletes
  refine fun s hb => ⟨fun ⟨t, ht⟩ hc => ?_, fun hc => ⟨_, organisationRefinesTheInstructions s hb hc⟩⟩
  rw [step_of_undefined hb hc] at ht
  exact faultOutcome_ne_next _ _ _ ht

/-- Settles O39: under `refuse` a defined code with a non-zero low half is rejected at the fetch; otherwise the opcode
byte is read as under the model's own policies. -/
theorem refusePolicyFaultsNonZeroLowHalf : Obligations.RefusePolicyFaultsNonZeroLowHalf := by
  unfold Obligations.RefusePolicyFaultsNonZeroLowHalf
  refine fun s hb => ⟨fun hc hlow => ?_, fun hc => stepWith_congr hb ?_, fun hlow => stepWith_congr hb ?_⟩
  · obtain ⟨m, hm⟩ := exists_mnemonicOf hc
    exact stepWith_of_rejected hb ((decodeOpcode_of_decoded _ hm).trans (if_pos ⟨rfl, hlow⟩))
  · have hd : decoded (opcodeAt s) = none := (mnemonicOf_eq_none_iff _).2 hc
    rw [decodeOpcode_of_undefined rfl hd, decodeOpcode_of_undefined rfl hd]
  · have hlow : lowHalf (opcodeAt s) = 0#4 := hlow
    cases hd : decoded (opcodeAt s) with
    | none => rw [decodeOpcode_of_undefined rfl hd, decodeOpcode_of_undefined rfl hd]
    | some m => simp [decodeOpcode_of_decoded _ hd, hlow]

end Sys2Proof.Machine

/-! ## What every time step keeps, every step keeps

A step is a meaning, or times up to the end of an instruction in progress. -/

namespace Sys2Proof.Machine

open Sys2Proof

/-- What every time step keeps, every number of them keeps. -/
theorem ticks_keeps {P : State → Prop} (htick : ∀ s, P s → P (tick s)) (k : Nat) {s : State} (h : P s) :
    P (ticks k s) := by
  induction k generalizing s with
  | zero => exact h
  | succ k ih => exact ih (htick s h)

theorem finishFetch_keeps {P : State → Prop} (htick : ∀ s, P s → P (tick s)) {s : State} (h : P s) :
    P (finishFetch s) := by
  unfold finishFetch
  split
  · exact ticks_keeps htick 3 h
  · exact ticks_keeps htick 2 h
  · exact ticks_keeps htick 1 h
  · exact h

theorem ticks_add (j k : Nat) (s : State) : ticks (j + k) s = ticks k (ticks j s) := by
  induction j generalizing s with
  | zero => rw [Nat.zero_add, ticks]
  | succ j ih => rw [Nat.succ_add, ticks, ih, ticks]

/-- Running an instruction to its end is that number of time steps, within the limit. -/
theorem runTimes_final (k : Nat) (s : State) :
    (runTimes k s).final = ticks (runTimes k s).times s ∧ (runTimes k s).times ≤ k := by
  induction k generalizing s with
  | zero => exact ⟨rfl, Nat.le_refl 0⟩
  | succ k ih =>
    obtain ⟨hfinal, htimes⟩ := ih (tick s)
    simp only [runTimes]
    split
    · exact ⟨rfl, Nat.zero_le _⟩
    · split
      · exact ⟨rfl, Nat.le_add_left 1 k⟩
      · exact ⟨hfinal, Nat.succ_le_succ htimes⟩

theorem runTimes_keeps {P : State → Prop} (htick : ∀ s, P s → P (tick s)) (k : Nat) {s : State} (h : P s) :
    P (runTimes k s).final := by
  rw [(runTimes_final k s).1]
  exact ticks_keeps htick _ h

/-- What every meaning and every time step keep, every step keeps, from inside an instruction too. -/
theorem stepWith_keeps {P : State → Prop} (htick : ∀ s, P s → P (tick s))
    (hexec : ∀ (i : Instr) (s t : State), P s → exec i s = .next t → P t) {p : Policies} {s t : State} (h : P s)
    (ht : stepWith p s = .next t) : P t := by
  obtain ⟨-, rfl⟩ | ⟨-, -, i, -, hi⟩ | ⟨-, -, m, -, rfl⟩ := stepWith_next_cases ht
  · exact h
  · exact hexec i s t h hi
  · exact runTimes_keeps htick _ (finishFetch_keeps htick h)

end Sys2Proof.Machine

/-! ## N and Z describe AC (10_state.md R17, R19) -/

namespace Sys2Proof.Machine

open Sys2Proof

theorem loadUal_flagsAgree (op : UalOp) (s : State) : flagsAgree (loadUal op s) := ⟨rfl, rfl⟩

/-- Each of the five instructions that load AC answers a next state, with the flags of the AC it loaded. -/
theorem exec_load_flagsAgree {i : Instr} (hc : i.code ∈ [0b0010#4, 0b0011#4, 0b0100#4, 0b0101#4, 0b0110#4])
    (s : State) : ∃ t, exec i s = .next t ∧ flagsAgree t := by
  cases i with
  | lda | add | or | and | not => exact ⟨_, rfl, loadUal_flagsAgree _ _⟩
  | nop | sta | jmp | jn | jz | hlt => simp [Instr.code] at hc

theorem flagsAgree_of_eq {s t : State} (h : flagsAgree s) (he : t.ac = s.ac ∧ t.n = s.n ∧ t.z = s.z) :
    flagsAgree t := by
  obtain ⟨hac, hn, hz⟩ := he
  rw [flagsAgree, hac, hn, hz]
  exact h

/-- An instruction sets the flags from the AC it loads, or keeps AC and the flags. -/
theorem exec_keeps_flagsAgree (i : Instr) (s t : State) (h : flagsAgree s) (ht : exec i s = .next t) :
    flagsAgree t := by
  by_cases hc : i.code ∈ [0b0010#4, 0b0011#4, 0b0100#4, 0b0101#4, 0b0110#4]
  · obtain ⟨t', ht', hagree⟩ := exec_load_flagsAgree hc s
    obtain rfl := Host.Outcome.next.inj (ht.symm.trans ht')
    exact hagree
  · exact flagsAgree_of_eq h (exec_keeps_ac_flags ht hc)

theorem signalsAt_cargaNZ (s : State) : (signalsAt s).cargaNZ = (signalsAt s).cargaAC := by
  unfold signalsAt
  split
  · exact controlUnit_cargaNZ _ _ _ _
  · rfl
  · rfl

/-- A time that loads AC loads the flags from the same output of the UAL; any other keeps AC and the flags. -/
theorem tick_keeps_flagsAgree (s : State) (h : flagsAgree s) : flagsAgree (tick s) := by
  by_cases hac : (signalsAt s).cargaAC = true
  · have hr : s.run = .running := running_of_signal Signals.cargaAC rfl hac
    simp [flagsAgree, tick_running hr, datapath, flagN, flagZ, signalsAt_cargaNZ, hac]
  · exact flagsAgree_of_eq h (tick_keeps_ac_flags (Bool.eq_false_iff.2 hac))

/-- Settles O24: every meaning and every time step keep the agreement, so every step does. -/
theorem flagsAgreementIsKeptByEveryStep : Obligations.FlagsAgreementIsKeptByEveryStep := by
  unfold Obligations.FlagsAgreementIsKeptByEveryStep
  rintro p s t h (ht | rfl)
  · exact stepWith_keeps tick_keeps_flagsAgree exec_keeps_flagsAgree h ht
  · exact tick_keeps_flagsAgree s h

/-- Bit 7 is the sign in two's complement. -/
theorem getLsbD_seven (v : Byte) : v.getLsbD 7 = decide (v.toInt < 0) := by
  rw [← BitVec.msb_eq_toInt, BitVec.msb_eq_getLsbD_last]

theorem eq_zero_iff_bits (v : Byte) : v = 0x00#8 ↔ ∀ k, k < 8 → v.getLsbD k = false := by
  refine ⟨by rintro rfl; simp, fun h => BitVec.eq_of_getLsbD_eq fun k hk => ?_⟩
  rw [h k hk, BitVec.getLsbD_zero]

/-- Settles O23: the five loads leave flags that agree with AC, and what that says of the value of AC. -/
theorem flagsDescribeTheLoadedValue : Obligations.FlagsDescribeTheLoadedValue := by
  unfold Obligations.FlagsDescribeTheLoadedValue
  intro i s hc
  obtain ⟨t, ht, hagree⟩ := exec_load_flagsAgree hc s
  have hn : t.n = true ↔ t.ac.toInt < 0 := by rw [hagree.1, getLsbD_seven, decide_eq_true_iff]
  have hz : t.z = true ↔ t.ac = 0x00#8 := by rw [hagree.2, beq_iff_eq]
  refine ⟨t, ht, hn, hz.trans (eq_zero_iff_bits t.ac), fun ⟨htn, htz⟩ => ?_, hagree⟩
  exact absurd (hz.1 htz ▸ hn.1 htn) (by decide)

end Sys2Proof.Machine

/-! ## The invariant (10_state.md R23, R24, 20_memory.md R30) -/

namespace Sys2Proof.Machine

open Sys2Proof

theorem exec_keeps_mem_wf (i : Instr) (s t : State) (h : s.mem.wf = true) (ht : exec i s = .next t) :
    t.mem.wf = true := by
  cases i with
  | sta e =>
    obtain rfl := Host.Outcome.next.inj ht
    exact memWrite_wf e s.ac h
  | nop | lda | add | or | and | not | jmp | jn | jz | hlt =>
    rw [exec_keeps_mem ht (by simp [Instr.code])]
    exact h

/-- From a running machine at a boundary a step leads to a boundary, or, by HLT, to a machine halted at t3. -/
theorem step_next_of_boundary {s t : State} (hb : atBoundary s) (h : step s = .next t) :
    atBoundary t ∨ (t.run = .halted ∧ t.time = .t3) := by
  obtain ⟨hr, ht⟩ := hb
  obtain ⟨hh, -⟩ | ⟨-, -, i, -, hi⟩ | ⟨-, hn, -⟩ := stepWith_next_cases h
  · simp [hr] at hh
  · obtain ⟨htime, hrun⟩ | ⟨-, htime, hrun⟩ := exec_end hi
    · exact .inl ⟨hrun.trans hr, htime⟩
    · exact .inr ⟨hrun, htime⟩
  · exact absurd ht hn

/-- Settles O44: memory by what every meaning and every time step keep; the time and the run state by how an instruction
ends, because the invariant puts a running machine at a boundary. -/
theorem everyStepKeepsTheInvariant : Obligations.EveryStepKeepsTheInvariant := by
  unfold Obligations.EveryStepKeepsTheInvariant
  have hwf : ∀ {p : Policies} {s t : State}, s.mem.wf = true → stepWith p s = .next t → t.mem.wf = true :=
    stepWith_keeps (P := fun s => s.mem.wf = true) (fun _ => tick_mem_wf) exec_keeps_mem_wf
  refine ⟨fun s t ⟨hmem, hrunning, hhalted⟩ h => ⟨hwf hmem h, ?_⟩, ?_⟩
  · cases hr : s.run with
    | running =>
      obtain ⟨hrun, htime⟩ | ⟨hrun, htime⟩ := step_next_of_boundary ⟨hr, hrunning hr⟩ h <;> simp [hrun, htime]
    | halted =>
      obtain rfl := Host.Outcome.next.inj ((stepWith_halted hr).symm.trans h)
      exact ⟨hrunning, hhalted⟩
    | faulted r => exact absurd ((stepWith_faulted hr).symm.trans h) (faultOutcome_ne_next r s t)
  · rintro p s t h (ht | rfl)
    · exact hwf h ht
    · exact tick_mem_wf h

/-- Settles O43: the memory at reset is canonical, and the machine runs at t0. -/
theorem invariantHoldsAtReset : Obligations.InvariantHoldsAtReset :=
  ⟨reset_memory_wf, fun _ => rfl, fun h => by cases h⟩

end Sys2Proof.Machine

/-! ## Runs of instructions and runs of times (45_control_sequences.md R138, R140) -/

namespace Sys2Proof.Machine

open Sys2Proof

theorem coreRun_halted {s : State} (h : s.run = .halted) (k : Nat) : core.run k s = .next s := by
  induction k with
  | zero => exact coreRun_zero s
  | succ k ih => rw [coreRun_of_next (stepWith_halted h), ih]

/-- A step from a boundary that answers a next state is at most eight time steps. -/
theorem step_next_eq_ticks {s t : State} (hb : atBoundary s) (h : step s = .next t) :
    ∃ j, j ≤ 8 ∧ ticks j s = t := by
  have hc : codeAt s ∉ undefinedCodes := (everyDefinedCodeCompletes s hb).1 ⟨t, h⟩
  obtain rfl := Host.Outcome.next.inj (h.symm.trans (organisationRefinesTheInstructions s hb hc))
  obtain ⟨hfinal, htimes⟩ := runTimes_final 8 s
  exact ⟨_, htimes, hfinal.symm⟩

/-- A run that answers a next state begins with a step that does. -/
theorem coreRun_succ_next {k : Nat} {s t : State} (h : core.run (k + 1) s = .next t) :
    ∃ u, step s = .next u ∧ core.run k u = .next t := by
  cases hs : step s with
  | next u => exact ⟨u, rfl, (coreRun_of_next hs).symm.trans h⟩
  | fault r => cases (coreRun_of_fault hs).symm.trans h
  | refused r => cases (coreRun_of_refused hs).symm.trans h

/-- Settles O56: by induction on the number of steps; after the first the machine is at a boundary again, or halted, and
then the rest of the run stays there. -/
theorem everyRunIsARunOfTimes : Obligations.EveryRunIsARunOfTimes := by
  unfold Obligations.EveryRunIsARunOfTimes
  intro k
  induction k with
  | zero => exact fun s t _ h => ⟨0, Nat.le_refl 0, Host.Outcome.next.inj h⟩
  | succ k ih =>
    intro s t hb h
    obtain ⟨u, hu, hrest⟩ := coreRun_succ_next h
    obtain ⟨j, hj, rfl⟩ := step_next_eq_ticks hb hu
    obtain hbu | ⟨hhalted, -⟩ := step_next_of_boundary hb hu
    · obtain ⟨j', hj', rfl⟩ := ih _ t hbu hrest
      exact ⟨j + j', by omega, ticks_add j j' s⟩
    · exact ⟨j, by omega, Host.Outcome.next.inj ((coreRun_halted hhalted k).symm.trans hrest)⟩

end Sys2Proof.Machine

/-! ## The sum in two's complement (41_arithmetic_logic.md R83 to R86) -/

namespace Sys2Proof.Machine

open Sys2Proof

theorem byte_toInt_range (v : Byte) : -128 ≤ v.toInt ∧ v.toInt ≤ 127 :=
  ⟨BitVec.le_toInt v, Int.lt_add_one_iff.1 BitVec.toInt_lt⟩

/-- The sum modulo 256 is the signed sum where that fits in eight bits, and off by exactly 256 elsewhere. -/
theorem ual_add_toInt (x y : Byte) :
    (-128 ≤ x.toInt + y.toInt ∧ x.toInt + y.toInt ≤ 127 → (ual .add x y).toInt = x.toInt + y.toInt) ∧
    (127 < x.toInt + y.toInt → (ual .add x y).toInt = x.toInt + y.toInt - 256) ∧
    (x.toInt + y.toInt < -128 → (ual .add x y).toInt = x.toInt + y.toInt + 256) := by
  have hsum : (ual .add x y).toInt = (x.toInt + y.toInt).bmod 256 := BitVec.toInt_add x y
  have hx := byte_toInt_range x
  have hy := byte_toInt_range y
  rw [hsum, Int.bmod]
  omega

/-- The carry out of bit 7, told from an operand and the sum. -/
theorem ual_add_lt_iff (x y : Byte) : 256 ≤ x.toNat + y.toNat ↔ (ual .add x y).toNat < y.toNat := by
  have hx : x.toNat < 256 := x.isLt
  have hy : y.toNat < 256 := y.isLt
  rw [ual_add_toNat]
  omega

/-- The signed overflow, told from bit 7 of the operands and of the sum. -/
theorem ual_add_overflow_iff (x y : Byte) :
    (x.toInt + y.toInt < -128 ∨ 127 < x.toInt + y.toInt) ↔
      (x.getLsbD 7 = y.getLsbD 7 ∧ (ual .add x y).getLsbD 7 ≠ x.getLsbD 7) := by
  have hx := byte_toInt_range x
  have hy := byte_toInt_range y
  have hsum := ual_add_toInt x y
  simp only [getLsbD_seven, decide_eq_decide, ne_eq]
  omega

/-- Settles O19: the sum that UAL(ADD) puts out, as a signed number. -/
theorem addIsTheSignedSumOrOffBy256 : Obligations.AddIsTheSignedSumOrOffBy256 := by
  unfold Obligations.AddIsTheSignedSumOrOffBy256
  exact fun s e => ⟨_, exec_add e s, ual_add_toInt s.ac (memRead s.mem e)⟩

/-- Settles O20: the carry and the overflow of UAL(ADD). -/
theorem carryAndOverflowShowInTheResult : Obligations.CarryAndOverflowShowInTheResult := by
  unfold Obligations.CarryAndOverflowShowInTheResult
  exact fun s e => ⟨_, exec_add e s, ual_add_lt_iff s.ac (memRead s.mem e), ual_add_overflow_iff s.ac (memRead s.mem e)⟩

/-- The complement plus one is the negation, except for the one value whose negation does not fit. -/
theorem ual_add_not_one (x y : Byte) :
    (x ≠ 0x80#8 → (ual .add (ual .not x y) 0x01#8).toInt = -x.toInt) ∧
    (x = 0x80#8 → ual .add (ual .not x y) 0x01#8 = 0x80#8) := by
  refine ⟨fun hne => ?_, by rintro rfl; rfl⟩
  have hmin : x.toInt ≠ -128 := fun h => hne (BitVec.eq_of_toInt_eq h)
  have hx := byte_toInt_range x
  have hone : (0x01#8).toInt = 1 := rfl
  have hsum := (ual_add_toInt (ual .not x y) 0x01#8).1
  rw [ual_not_toInt, hone] at hsum
  rw [hsum (by omega)]
  omega

/-- Settles O21: the readings of UAL(NOT), and UAL(ADD) of its output and 1; both load the flags with AC. -/
theorem notThenAddOneNegates : Obligations.NotThenAddOneNegates := by
  unfold Obligations.NotThenAddOneNegates
  refine fun s e => ⟨_, _, _, exec_not s, exec_not _, exec_add e _, ual_not_toInt s.ac (opcodeAt s),
    ual_not_twice s.ac (opcodeAt s) (opcodeAt s), loadUal_flagsAgree _ _, fun h1 => ?_⟩
  obtain ⟨hne, heq⟩ := ual_add_not_one s.ac (opcodeAt s)
  rw [← h1] at hne heq
  exact ⟨hne, heq, loadUal_flagsAgree _ _⟩

end Sys2Proof.Machine

/-! ## Who reads the flags (10_state.md R18) -/

namespace Sys2Proof.Machine

open Sys2Proof

/-- Settles O25: five instructions load the flags without reading them, four keep them unread, and a conditional jump
decides by its own flag. -/
theorem onlyConditionalJumpsReadTheFlags : Obligations.OnlyConditionalJumpsReadTheFlags := by
  unfold Obligations.OnlyConditionalJumpsReadTheFlags
  intro i s n z
  cases i with
  | jn e =>
    refine ⟨_, _, rfl, rfl, fun hn _ => ?_⟩
    obtain rfl : n = s.n := hn rfl
    cases s.n <;> exact ⟨rfl, rfl, rfl, rfl⟩
  | jz e =>
    refine ⟨_, _, rfl, rfl, fun _ hz => ?_⟩
    obtain rfl : z = s.z := hz rfl
    cases s.z <;> exact ⟨rfl, rfl, rfl, rfl⟩
  | nop | sta | lda | add | or | and | not | jmp | hlt => exact ⟨_, _, rfl, rfl, fun _ _ => ⟨rfl, rfl, rfl, rfl⟩⟩

end Sys2Proof.Machine

/-! ## Frames of the instructions, and PC at the top of memory (10_state.md R14, R24) -/

namespace Sys2Proof.Machine

open Sys2Proof

theorem exec_keeps_run {i : Instr} {s t : State} (h : exec i s = .next t) (hi : i ≠ .hlt) : t.run = s.run := by
  obtain ⟨-, hrun⟩ | ⟨hhlt, -⟩ := exec_end h
  · exact hrun
  · exact absurd hhlt hi

/-- Settles O27: the increment modulo 256 at FFH, and PC after NOP, LDA and an untaken JN there. -/
theorem pcWrapsAtTheTop : Obligations.PcWrapsAtTheTop := by
  unfold Obligations.PcWrapsAtTheTop
  intro s hpc
  refine ⟨?_, ?_, ⟨_, exec_nop s, ?_⟩, fun e => ⟨_, exec_lda e s, ?_⟩, fun e hn => ⟨_, exec_jn e s, ?_⟩⟩
  · rw [incPC_pc, hpc]; rfl
  · rw [operandAt, hpc]; rfl
  · rw [gotoT0_pc, fetchPhase_pc, hpc]; rfl
  · rw [loadFromMem_pc, hpc]; rfl
  · rw [hn, gotoT0_pc, jumpIf_pc, fetchPhase_pc, hpc]; rfl

/-- Settles O29: STA is not among the instructions that load AC nor is it HLT, and it stores at its operand alone. -/
theorem frameOfSta : Obligations.FrameOfSta := by
  unfold Obligations.FrameOfSta
  intro s t e h
  obtain ⟨hac, hn, hz⟩ := exec_keeps_ac_flags h (by simp [Instr.code])
  obtain ⟨-, hmem, -⟩ := exec_sta_stores h
  exact ⟨hac, hn, hz, exec_keeps_run h (by simp), hmem⟩

/-- Settles O30: no load of AC is STA or HLT. -/
theorem frameOfTheAccumulatorLoads : Obligations.FrameOfTheAccumulatorLoads := by
  unfold Obligations.FrameOfTheAccumulatorLoads
  intro i s t hc h
  have hhlt : i ≠ .hlt := by
    rintro rfl
    simp [Instr.code] at hc
  have hsta : i.code ≠ 0b0001#4 := by
    intro hsta
    simp [hsta] at hc
  exact ⟨exec_keeps_run h hhlt, fun a => by rw [exec_keeps_mem h hsta]⟩

/-- Settles O31: none of the five loads AC or is STA. -/
theorem frameOfTheOthers : Obligations.FrameOfTheOthers := by
  unfold Obligations.FrameOfTheOthers
  intro i s t hc h
  have hload : i.code ∉ [0b0010#4, 0b0011#4, 0b0100#4, 0b0101#4, 0b0110#4] := by
    revert hc
    generalize i.code = c
    revert c
    decide
  have hsta : i.code ≠ 0b0001#4 := by
    intro hsta
    simp [hsta] at hc
  obtain ⟨hac, hn, hz⟩ := exec_keeps_ac_flags h hload
  refine ⟨hac, hn, hz, fun a => by rw [exec_keeps_mem h hsta], fun hne => exec_keeps_run h ?_⟩
  rintro rfl
  exact hne rfl

end Sys2Proof.Machine

/-! ## Memories in canonical form (20_memory.md R30, log 10) -/

namespace Sys2Proof.Machine

open Sys2Proof

theorem memLookup_of_mem {m : Memory} {k : Nat} {v : Byte} (hs : m.Pairwise fun c d => c.1 < d.1) (h : (k, v) ∈ m) :
    memLookup m k = v := by
  induction m with
  | nil => cases h
  | cons c rest ih =>
    obtain ⟨hlt, hrest⟩ := List.pairwise_cons.1 hs
    obtain rfl | h := List.mem_cons.1 h
    · simp [memLookup]
    · have hne : c.1 ≠ k := Nat.ne_of_lt (hlt (k, v) h)
      simp only [memLookup, if_neg hne]
      exact ih hrest h

theorem mem_of_memLookup {m : Memory} {k : Nat} (h : memLookup m k ≠ memDefault) : (k, memLookup m k) ∈ m := by
  induction m with
  | nil => exact absurd rfl h
  | cons c rest ih =>
    obtain ⟨j, v⟩ := c
    by_cases hj : j = k
    · simp [memLookup, hj]
    · simp only [memLookup, if_neg hj] at h ⊢
      exact List.mem_cons_of_mem _ (ih h)

/-- The entries of a canonical memory are the addresses that do not read the default, each with what it reads. -/
theorem mem_iff_memRead {m : Memory} (h : m.wf = true) (k : Nat) (v : Byte) :
    (k, v) ∈ m ↔ ∃ a : Byte, a.toNat = k ∧ memRead m a = v ∧ v ≠ memDefault := by
  obtain ⟨hs, hv⟩ := (memory_wf_iff m).1 h
  constructor
  · intro hmem
    obtain ⟨hk, hne⟩ := hv _ hmem
    have ha : (BitVec.ofNat 8 k).toNat = k := Nat.mod_eq_of_lt hk
    exact ⟨BitVec.ofNat 8 k, ha, by rw [memRead, ha, memLookup_of_mem hs hmem], hne⟩
  · rintro ⟨a, rfl, rfl, hne⟩
    exact mem_of_memLookup hne

theorem nodup_of_rising {m : Memory} (hs : m.Pairwise fun c d => c.1 < d.1) : m.Nodup :=
  List.Pairwise.imp (fun hlt => mt (congrArg Prod.fst) (Nat.ne_of_lt hlt)) hs

/-- Settles O32: by what they read the two have the same entries, and both list them by rising address. -/
theorem canonicalMemoriesThatReadTheSameAreEqual : Obligations.CanonicalMemoriesThatReadTheSameAreEqual := by
  unfold Obligations.CanonicalMemoriesThatReadTheSameAreEqual
  intro m m' h h' hread
  obtain ⟨hs, -⟩ := (memory_wf_iff m).1 h
  obtain ⟨hs', -⟩ := (memory_wf_iff m').1 h'
  have hmem : ∀ c, c ∈ m ↔ c ∈ m' := by
    rintro ⟨k, v⟩
    simp only [mem_iff_memRead h, mem_iff_memRead h', hread]
  have hperm : List.Perm m m' := (List.perm_ext_iff_of_nodup (nodup_of_rising hs) (nodup_of_rising hs')).2 hmem
  exact hperm.eq_of_pairwise (fun c d _ _ hcd hdc => absurd hcd (Nat.lt_asymm hdc)) hs hs'

/-- Settles O33: the fields of STA's next state, read by the law of a read after a write; the next step is that of any
boundary. -/
theorem storesAreSeenByTheNextFetch : Obligations.StoresAreSeenByTheNextFetch := by
  unfold Obligations.StoresAreSeenByTheNextFetch
  intro s e hb hf
  have hstep := (stepWith_of_fetchInstr hb hf).trans (exec_sta_fields e s)
  have hread := memRead_memWrite s.mem e (v := s.ac)
  refine ⟨_, hstep, ⟨hb.1, rfl⟩, rfl, hread, ?_, ?_, fun i => stepRunsTheInstructionAtPc _ i [] ⟨hb.1, rfl⟩⟩
  · simp only [opcodeAt, hread, eq_comm]
  · have hpc : s.pc + 2#8 + 1#8 = s.pc + 3#8 := by rw [BitVec.add_assoc]; rfl
    simp only [operandAt, hread, hpc, eq_comm]

end Sys2Proof.Machine

/-! ## Faulted and halted machines (60_exceptions.md R153, 43_nop_hlt.md R102) -/

namespace Sys2Proof.Machine

open Sys2Proof

/-- Every instruction has its meaning. -/
theorem exec_next (i : Instr) (s : State) : ∃ t, exec i s = .next t := by cases i <;> exact ⟨_, rfl⟩

theorem faultOutcome_ne_refused (r : FaultReason) (s : State) (q : Refusal) : faultOutcome r s ≠ .refused q := by
  cases r <;> simp [faultOutcome]

/-- Settles O37: the outcomes of a step are those of a halted and of a faulted machine, of a meaning, of a rejected
opcode byte, and of the times to an instruction's end. -/
theorem noStepRefuses : Obligations.NoStepRefuses := by
  unfold Obligations.NoStepRefuses
  intro p s q h
  cases hr : s.run with
  | halted => cases (stepWith_halted hr).symm.trans h
  | faulted r => exact faultOutcome_ne_refused r s q ((stepWith_faulted hr).symm.trans h)
  | running =>
    by_cases ht : s.time = .t0
    · rw [stepWith_boundary hr ht] at h
      split at h
      · next i _ =>
        obtain ⟨t, hi⟩ := exec_next i s
        cases hi.symm.trans h
      · exact faultOutcome_ne_refused _ _ q h
    · rw [stepWith_inside hr ht, resume] at h
      split at h
      · exact faultOutcome_ne_refused _ _ q h
      · cases h

/-- Settles O38: the step of a faulted machine answers its reason, and it makes no time step. -/
theorem faultedStateIsNeverLeft : Obligations.FaultedStateIsNeverLeft := by
  unfold Obligations.FaultedStateIsNeverLeft
  exact fun p s a b => ⟨fun hr => ⟨stepWith_faulted hr, tick_not_running (by simp [hr])⟩,
    fun hr => ⟨stepWith_faulted hr, tick_not_running (by simp [hr])⟩⟩

theorem runTimes_not_running {s : State} (h : s.run ≠ .running) (k : Nat) :
    runTimes k s = { final := s, times := 0, accesses := [] } := by
  cases k with
  | zero => rfl
  | succ k => simp [runTimes, h]

/-- Settles O40: the run state of a launch, of HLT and of the other ten; and a halted machine, which no step and no time
changes. -/
theorem onlyHltHaltsAndHaltedIsFinal : Obligations.OnlyHltHaltsAndHaltedIsFinal := by
  unfold Obligations.OnlyHltHaltsAndHaltedIsFinal
  refine ⟨fun _ _ _ _ _ _ _ _ => rfl, fun s => ⟨_, exec_hlt s, rfl⟩, fun i s t => exec_keeps_run, fun s k hr => ?_⟩
  have hne : s.run ≠ .running := by simp [hr]
  exact ⟨coreRun_halted hr k, ticks_not_running hne k, by rw [runTimes_not_running hne k]⟩

/-- Settles O42: the launch's fields as given, and the model's values at reset. -/
theorem launchStartsAtABoundary : Obligations.LaunchStartsAtABoundary := by
  unfold Obligations.LaunchStartsAtABoundary
  exact ⟨fun _ _ _ _ _ _ _ _ => ⟨⟨rfl, rfl⟩, rfl, rfl, rfl, rfl, rfl⟩, ⟨rfl, rfl⟩, rfl, fun _ => rfl⟩

end Sys2Proof.Machine

/-! ## RI, REM and RDM cannot be observed (10_state.md R25, R27) -/

namespace Sys2Proof.Machine

open Sys2Proof

/-- A state with other values in the hidden registers. -/
def withHidden (ri rem rdm : Byte) (s : State) : State := { s with ri := ri, rem := rem, rdm := rdm }

theorem eq_withHidden_of_sameVisible {s s' : State} (h : sameVisible s s') :
    s' = withHidden s'.ri s'.rem s'.rdm s := by
  obtain ⟨hac, hpc, hn, hz, hmem, hrun, htime⟩ := h
  simp [withHidden, hac, hpc, hn, hz, hmem, hrun, htime]

/-- Every meaning begins with the fetch phase, which overwrites all three. -/
theorem exec_withHidden (i : Instr) (ri rem rdm : Byte) (s : State) : exec i (withHidden ri rem rdm s) = exec i s := by
  cases i <;> rfl

theorem step_withHidden {s : State} (hb : atBoundary s) (ri rem rdm : Byte) :
    step (withHidden ri rem rdm s) = step s := by
  have hfetch : fetchInstr policies (withHidden ri rem rdm s) = fetchInstr policies s := rfl
  obtain ⟨hr, ht⟩ := hb
  rw [step, step, stepWith_boundary (s := withHidden ri rem rdm s) hr ht, stepWith_boundary hr ht, hfetch]
  split
  · exact exec_withHidden _ ri rem rdm s
  · rfl

/-- Settles O41: the first step overwrites the hidden registers, so the two runs agree from there on. -/
theorem runsIgnoreTheHiddenRegisters : Obligations.RunsIgnoreTheHiddenRegisters := by
  unfold Obligations.RunsIgnoreTheHiddenRegisters
  intro s s' k hb hsame hk
  obtain ⟨k, rfl⟩ := Nat.exists_eq_succ_of_ne_zero (Nat.ne_of_gt hk)
  rw [eq_withHidden_of_sameVisible hsame]
  exact hostRun_congr (M := core) k (step_withHidden hb _ _ _).symm

end Sys2Proof.Machine

/-! ## Equations, tables and sequences (45_control_sequences.md R129 to R139) -/

namespace Sys2Proof.Machine

open Sys2Proof

/-- Settles O45: the equations for a decoded instruction are its column of the tables. -/
theorem equationsReproduceTheTimingTables : Obligations.EquationsReproduceTheTimingTables := controlUnit_some

/-- Settles O46: cell by cell, JN and JZ for each value of the flag they read. -/
theorem transfersNeedTheSignalsOfTheTables : Obligations.TransfersNeedTheSignalsOfTheTables := by
  unfold Obligations.TransfersNeedTheSignalsOfTheTables
  intro t m n z
  cases m with
  | jn => cases n <;> cases t <;> rfl
  | jz => cases z <;> cases t <;> rfl
  | nop | sta | lda | add | or | and | not | jmp | hlt => cases t <;> rfl

/-- Settles O49: each pair of signals stands in different times, or, with "goto t0" and Halt, under different
instructions. -/
theorem noTwoSourcesInOneTime : Obligations.NoTwoSourcesInOneTime := by
  unfold Obligations.NoTwoSourcesInOneTime
  refine fun t d n z => ⟨fun ⟨hpc, hinc⟩ => ?_, fun ⟨hread, hrdm⟩ => ?_, fun ⟨hgoto, hhalt⟩ => ?_,
    fun ⟨hread, hwrite⟩ => ?_⟩
  · obtain rfl : t = .t5 := by
      simp only [controlUnit, Bool.and_eq_true, beq_iff_eq] at hpc
      exact hpc.1
    simp [controlUnit] at hinc
  · rw [controlUnit_read_of_cargaRDM hrdm] at hread
    cases hread
  · obtain ⟨rfl, rfl⟩ := (controlUnit_halt_iff t d n z).1 hhalt
    rw [controlUnit_some] at hgoto
    cases hgoto
  · obtain ⟨rfl, -⟩ := (controlUnit_write_iff t d n z).1 hwrite
    simpa using time_of_controlUnit_read hread

/-- In the fetch phase the equations are every instruction's column of the tables. -/
theorem controlUnit_fetch {t : Time} (h : timeIndex t < 3) (d : Option Mnemonic) (m : Mnemonic) (n z : Bool) :
    controlUnit t d n z = timingTable t m n z := by
  cases t with
  | t0 => exact controlUnit_t0 d n z
  | t1 => exact controlUnit_t1 d n z
  | t2 => exact controlUnit_t2 d n z
  | t3 | t4 | t5 | t6 | t7 => simp [timeIndex] at h

/-- The signals of a cell of the tables transfer what the sequence lists for that time, cell by cell. -/
theorem datapath_timingTable (m : Mnemonic) (s : State) :
    datapath (timingTable s.time m s.n s.z) s = sequenceStep m s := by
  obtain ⟨ac, pc, n, z, ri, rem, rdm, time, run, mem⟩ := s
  cases m with
  | jn => cases n <;> cases time <;> rfl
  | jz => cases z <;> cases time <;> rfl
  | nop | sta | lda | add | or | and | not | jmp | hlt => cases time <;> rfl

/-- Settles O52: the signals are those of the instruction's column, decoded or not yet, and those perform its
sequence. -/
theorem timeStepPerformsTheSequence : Obligations.TimeStepPerformsTheSequence := by
  unfold Obligations.TimeStepPerformsTheSequence
  intro s m hr hm _
  have hc : signalsAt s = timingTable s.time m s.n s.z := by
    obtain hm | hfetch := hm
    · exact signalsAt_of_decoded hr hm
    · rw [signalsAt_running hr, controlUnit_fetch hfetch]
  rw [tick_running hr, hc, datapath_timingTable]

end Sys2Proof.Machine

/-! ## A step from inside an instruction (log 17) -/

namespace Sys2Proof.Machine

open Sys2Proof

/-- An instruction that takes more than one time goes on after the first. -/
theorem going_on_of_times {k : Nat} {s : State} (h : 1 < (runTimes k s).times) :
    s.run = .running ∧ (signalsAt s).gotoT0 = false ∧ (signalsAt s).halt = false := by
  by_cases hr : s.run = .running
  · refine ⟨hr, Bool.or_eq_false_iff.1 (Bool.eq_false_iff.2 fun he => ?_)⟩
    cases k with
    | zero => simp [runTimes] at h
    | succ k => simp [runTimes_of_end k hr rfl he] at h
  · simp [runTimes_not_running hr] at h

/-- RI is loaded at t2 alone. -/
theorem tick_ri_of_execution {s : State} (h : 3 ≤ timeIndex s.time) : (tick s).ri = s.ri := by
  by_cases hr : s.run = .running
  · have hne : s.time ≠ .t2 := by
      intro ht
      simp [ht, timeIndex] at h
    simp [tick_running hr, signalsAt_running hr, datapath, controlUnit, hne]
  · rw [tick_not_running hr]

/-- In the execution phase, before the instruction's end: the machine runs, each time step is one time, RI is kept, and
the rest of the instruction ends where the whole of it does. -/
theorem ticks_before_end {j k : Nat} {s : State} (h : j < (runTimes k s).times) (h3 : 3 ≤ timeIndex s.time)
    (hk : timeIndex s.time + k ≤ 8) :
    (ticks j s).run = .running ∧ timeIndex (ticks j s).time = timeIndex s.time + j ∧ (ticks j s).ri = s.ri ∧
      (runTimes (k - j) (ticks j s)).final = (runTimes k s).final := by
  induction j generalizing k s with
  | zero =>
    have hr : s.run = .running := by
      by_contra hr
      simp [runTimes_not_running hr] at h
    exact ⟨hr, rfl, rfl, rfl⟩
  | succ j ih =>
    have hle : (runTimes k s).times ≤ k := (runTimes_final k s).2
    obtain ⟨hr, hgoto, hhalt⟩ := going_on_of_times (s := s) (k := k) (by omega)
    obtain ⟨k, rfl⟩ := Nat.exists_eq_succ_of_ne_zero (n := k) (by omega)
    have hne : s.time ≠ .t7 := by
      intro ht
      simp only [ht, timeIndex] at hk
      omega
    have htime : timeIndex (tick s).time = timeIndex s.time + 1 := by
      rw [(tick_of_going_on hr hgoto hhalt).1, timeIndex_followingTime hne]
    have hrest := runTimes_of_going_on k hr rfl hgoto hhalt
    rw [← tick_running hr] at hrest
    rw [hrest] at h ⊢
    obtain ⟨hrun, htimes, hri, hfinal⟩ := ih (s := tick s) (k := k) (by simpa using h) (by omega) (by omega)
    refine ⟨hrun, by rw [ticks, htimes, htime]; omega, hri.trans (tick_ri_of_execution h3), ?_⟩
    rwa [Nat.succ_sub_succ]

/-- A step inside an instruction finishes the fetch phase, then goes on to the instruction's end. -/
theorem step_inside {s f : State} {m : Mnemonic} (hr : s.run = .running) (ht : s.time ≠ .t0) (hf : finishFetch s = f)
    (hm : decoded f.ri = some m) : step s = .next (runTimes (8 - timeIndex f.time) f).final := by
  have hd : decodeOpcode policies f.ri = .ok m := (decodeOpcode_policies_ok_iff f.ri m).2 hm
  simp only [step, stepWith_inside hr ht, resume, hf, hd]

theorem finishFetch_of_execution {s : State} (h : 3 ≤ timeIndex s.time) : finishFetch s = s := by
  unfold finishFetch
  cases ht : s.time with
  | t0 | t1 | t2 => simp [ht, timeIndex] at h
  | t3 | t4 | t5 | t6 | t7 => rfl

/-- A step inside the fetch phase completes it first. -/
theorem step_ticks_fetch {s : State} {m : Mnemonic} (hb : atBoundary s) (hm : decoded (opcodeAt s) = some m) :
    step (ticks 1 s) = .next (runTimes 5 (fetchPhase s)).final ∧
    step (ticks 2 s) = .next (runTimes 5 (fetchPhase s)).final := by
  obtain ⟨-, hfetch⟩ := fetchPhaseTakesT0ToT2
  obtain ⟨h1, h2, -⟩ := hfetch s hb
  have hf1 : finishFetch (ticks 1 s) = fetchPhase s := by
    rw [← ticks_three_of_boundary hb, ticks_add 1 2 s]
    simp only [finishFetch, h1]
  have hf2 : finishFetch (ticks 2 s) = fetchPhase s := by
    rw [← ticks_three_of_boundary hb, ticks_add 2 1 s]
    simp only [finishFetch, h2]
  exact ⟨step_inside (by rw [h1]; exact hb.1) (by simp [h1]) hf1 hm,
    step_inside (by rw [h2]; exact hb.1) (by simp [h2]) hf2 hm⟩

/-- A step inside the execution phase goes on from there. -/
theorem step_ticks_execution {s : State} {m : Mnemonic} {j : Nat} (hm : decoded (opcodeAt s) = some m)
    (h : j < (runTimes 5 (fetchPhase s)).times) :
    step (ticks j (fetchPhase s)) = .next (runTimes 5 (fetchPhase s)).final := by
  obtain ⟨hrun, htime, hri, hfinal⟩ := ticks_before_end h (Nat.le_refl 3) (Nat.le_refl 8)
  have htime : timeIndex (ticks j (fetchPhase s)).time = 3 + j := htime
  have ht0 : (ticks j (fetchPhase s)).time ≠ .t0 := by
    intro ht
    simp only [ht, timeIndex] at htime
    omega
  have hm : decoded (ticks j (fetchPhase s)).ri = some m := by rw [hri]; exact hm
  rw [step_inside hrun ht0 (finishFetch_of_execution (by omega)) hm, htime, Nat.sub_add_eq, hfinal]

/-- Settles O57: inside the fetch phase and inside the execution phase a step ends where the times from the boundary
do. -/
theorem stepFromInsideFinishesTheInstruction : Obligations.StepFromInsideFinishesTheInstruction := by
  unfold Obligations.StepFromInsideFinishesTheInstruction
  intro s m j hb hm hj
  obtain ⟨hexec, htimes, -⟩ := instrTrace_of_decoded hb hm
  rw [instrTrace, runTimes_of_boundary 5 hb] at hexec htimes
  have hstep : step s = .next (runTimes 5 (fetchPhase s)).final := (step_of_code hb hm).trans hexec
  obtain ⟨hone, htwo⟩ := step_ticks_fetch hb hm
  rw [hstep]
  match j, hj with
  | 0, _ => exact hstep
  | 1, _ => exact hone
  | 2, _ => exact htwo
  | j + 3, hj =>
    rw [← htimes] at hj
    rw [Nat.add_comm j 3, ticks_add, ticks_three_of_boundary hb]
    exact step_ticks_execution hm (Nat.lt_of_add_lt_add_right hj)

/-- Settles O58: an undefined code asserts nothing after the fetch phase, so its trace is the fetch and five empty
times; under nop1 its step is NOP's. -/
theorem undefinedCodeInTheOrganisation : Obligations.UndefinedCodeInTheOrganisation := by
  unfold Obligations.UndefinedCodeInTheOrganisation
  refine ⟨fun t n z ht => controlUnit_none ?_ n z, fun s hb hc => ?_⟩
  · intro hmem
    simp only [List.mem_cons, List.not_mem_nil, or_false] at hmem
    obtain rfl | rfl | rfl := hmem <;> simp [timeIndex] at ht
  · have hd : decoded (opcodeAt s) = none := (mnemonicOf_eq_none_iff _).2 hc
    rw [instrTrace, runTimes_of_boundary 5 hb, runTimes_of_undefined (s := fetchPhase s) hb.1 hd rfl]
    exact ⟨rfl, rfl, stepWith_of_fetchInstr hb (fetchInstr_of_decodeOpcode (decodeOpcode_of_undefined_nop1 rfl hd))⟩

end Sys2Proof.Machine
